-- ==== Sys2Proof/Word.lean ====
section
/-! DEFINITION. The words of the block's two ports (R11, R52, R70): every one has bit 0 least significant. -/

namespace Sys2Proof

/-- A command word: `{op[1:0], data[63:0]}` (R70). -/
abbrev CmdWord := BitVec 66

/-- The `data` bits 63:0 of a command word (R70). -/
abbrev Payload := BitVec 64

/-- An IEEE 754 binary64 bit pattern: bit 63 sign, bits 62:52 exponent, bits 51:0 fraction (notation `f64(bits)`
of `00_scope.md` section 5, R52).  Its arithmetic is `Machine/F64.lean`; `BitVec`'s own is never used on it. -/
abbrev F64 := BitVec 64

end Sys2Proof
end

