-- ==== Sys2Proof/Config.lean ====
section
/-! DEFINITION. What an instance is made with (R5, R6, R10), and the values the spec leaves open: the cosine (R9) and the
sign and payload of a NaN (R113).  The open values are opaque: nothing can be proved of which value they take. -/

namespace Sys2Proof

/-- The four binary64 operations that can make a NaN (R113); names the draw of `Config.nanBits`. -/
inductive NanSource where
  | add | sub | mul | div
  deriving DecidableEq, Repr

/-- `COS`, the cosine of `NUM = F64`: a configuration function of which nothing is assumed except that it is a function
of its operand (R9, `92_eei_decisions.md` D3).  FREE VALUE, log entry 4. -/
opaque Config.cos : F64 → F64

/-- Sign and fraction of the NaN that an operation makes of two operands.  R113: "The sign and payload of such a NaN are
not specified by this spec".  A function of the operation and its operands, since every operation of `NUM` is "a total
function of its operands" (R7).  FREE VALUE, log entry 5. -/
opaque Config.nanBits : NanSource → F64 → F64 → Bool × BitVec 52

/-- The default `LEN_W` (R10). -/
def Config.defaultLenW : Nat := 32

/-- The default `SAMPLE_RATE` 44100, as the binary64 bit pattern (R5, R21). -/
def Config.defaultSampleRate : F64 := 0x40E5888000000000#64

/-- The default `ENERGY_THRESHOLD` 0 (R6, R22). -/
def Config.defaultEnergyThreshold : F64 := 0x0000000000000000#64

end Sys2Proof
end

