-- ==== Sys2Proof/Machine/F64.lean ====
section
/-! DEFINITION. IEEE 754 binary64 with round-to-nearest, ties-to-even (R7, R113): every operation computes the exact result
as a fraction of naturals and rounds it once, in `F64.round`.  Magnitudes are counted in units of the least subnormal,
`2^-1074`, so that every finite number is a natural number of units. -/

namespace Sys2Proof

/-- Bit 63, the sign. -/
def F64.sign (a : F64) : Bool := decide (2 ^ 63 ≤ a.toNat)

/-- Bits 62:0, the exponent and fraction, which order the magnitudes. -/
def F64.mag (a : F64) : Nat := a.toNat % 2 ^ 63

/-- `mag` of an infinity: exponent field all ones, fraction 0. -/
def F64.infMag : Nat := 0x7FF0000000000000

/-- Exponent field all ones, fraction not 0. -/
def F64.isNaN (a : F64) : Bool := decide (F64.infMag < F64.mag a)

/-- Exponent field all ones, fraction 0. -/
def F64.isInf (a : F64) : Bool := decide (F64.mag a = F64.infMag)

/-- Neither a NaN nor an infinity. -/
def F64.isFinite (a : F64) : Bool := decide (F64.mag a < F64.infMag)

/-- `NUM.isZero`: true of both zeros (R11 notation, R103). -/
def F64.isZero (a : F64) : Bool := decide (F64.mag a = 0)

/-- The number with sign `s` and bits 62:0 equal to `m`. -/
def F64.ofMag (s : Bool) (m : Nat) : F64 := BitVec.ofNat 64 ((if s then 2 ^ 63 else 0) + m)

/-- The infinity of sign `s`. -/
def F64.inf (s : Bool) : F64 := F64.ofMag s F64.infMag

/-- How many units, of `2^-1074` each, make 1. -/
@[irreducible] def F64.scale : Nat := 2 ^ 1074

/-- The magnitude of a finite number, in units of `2^-1074`: a subnormal is its fraction, and a normal number of
exponent field `e` is `2^52 + fraction` times `2^(e-1)`. -/
def F64.units (a : F64) : Nat :=
  let e := F64.mag a / 2 ^ 52
  let f := F64.mag a % 2 ^ 52
  if e = 0 then f else (2 ^ 52 + f) <<< (e - 1)

/-- A finite number as a signed count of units. -/
def F64.signedUnits (a : F64) : Int :=
  if F64.sign a then - (F64.units a : Int) else (F64.units a : Int)

/-- The value of a finite number. -/
def F64.toRat (a : F64) : ℚ := (F64.signedUnits a : ℚ) / F64.scale

/-- `n / d` rounded to a natural number, ties to even (`0 < d`). -/
def F64.nearestEven (n d : Nat) : Nat :=
  let q := n / d
  let r := n % d
  if d < 2 * r ∨ (2 * r = d ∧ q % 2 = 1) then q + 1 else q

/-- `n / d` units (`0 < d`) rounded to a binary64 of sign `s` (R7, R113).  With `k` the exponent of the last place, the
53-bit significand is `n / (d * 2^k)` rounded; `k = 0` covers the subnormals.  A significand that rounds up to `2^53`
carries into the exponent field, and a result past the largest finite number is the infinity. -/
def F64.round (s : Bool) (n d : Nat) : F64 :=
  let k := Nat.log2 (n / d) - 52
  F64.ofMag s (min (k * 2 ^ 52 + F64.nearestEven n (d <<< k)) F64.infMag)

/-- A NaN: any sign, any fraction but 0 (R113; log entry 5). -/
def F64.nan (src : NanSource) (a b : F64) : F64 :=
  let f := (Config.nanBits src a b).2.toNat
  F64.ofMag (Config.nanBits src a b).1 (F64.infMag + (if f = 0 then 2 ^ 51 else f))

/-- `-a`: the sign bit turned over. -/
def F64.neg (a : F64) : F64 := F64.ofMag (!F64.sign a) (F64.mag a)

/-- The sum of two numbers neither of which is a NaN.  An exact sum of 0 is `-0` only of two negative zeros. -/
def F64.addCore (src : NanSource) (a b : F64) : F64 :=
  if F64.isInf a then
    if F64.isInf b && (F64.sign a != F64.sign b) then F64.nan src a b else a
  else if F64.isInf b then b
  else
    let t := F64.signedUnits a + F64.signedUnits b
    if t = 0 then F64.ofMag (F64.sign a && F64.sign b) 0
    else F64.round (decide (t < 0)) t.natAbs 1

/-- `NUM.add` -/
def F64.add (a b : F64) : F64 :=
  if F64.isNaN a || F64.isNaN b then F64.nan .add a b else F64.addCore .add a b

/-- `NUM.sub` -/
def F64.sub (a b : F64) : F64 :=
  if F64.isNaN a || F64.isNaN b then F64.nan .sub a b else F64.addCore .sub a (F64.neg b)

/-- `NUM.mul`: the product of two counts of units, over `scale`, is a count of units. -/
def F64.mul (a b : F64) : F64 :=
  let s := F64.sign a != F64.sign b
  if F64.isNaN a || F64.isNaN b then F64.nan .mul a b
  else if F64.isInf a || F64.isInf b then
    if F64.isZero a || F64.isZero b then F64.nan .mul a b else F64.inf s
  else F64.round s (F64.units a * F64.units b) F64.scale

/-- `NUM.div` -/
def F64.div (a b : F64) : F64 :=
  let s := F64.sign a != F64.sign b
  if F64.isNaN a || F64.isNaN b then F64.nan .div a b
  else if F64.isInf a then
    if F64.isInf b then F64.nan .div a b else F64.inf s
  else if F64.isInf b then F64.ofMag s 0
  else if F64.isZero b then
    if F64.isZero a then F64.nan .div a b else F64.inf s
  else F64.round s (F64.units a * F64.scale) (F64.units b)

/-- `NUM.ofNat`: exact below `2^53`, nearest even above (R108). -/
def F64.ofNat (n : Nat) : F64 := F64.round false (n * F64.scale) 1

/-- The binary64 nearest the decimal `mant * 10^exp`, negated if `neg` (`NUM.lit`, R7). -/
def F64.ofDecimal (neg : Bool) (mant : Nat) (exp : Int) : F64 :=
  F64.round neg (mant * 10 ^ exp.toNat * F64.scale) (10 ^ (-exp).toNat)

/-- The order key of a number that is not a NaN: its magnitude with its sign, so that both zeros have key 0. -/
def F64.key (a : F64) : Int := if F64.sign a then - (F64.mag a : Int) else (F64.mag a : Int)

/-- `NUM.gt`: the IEEE comparison `>`, false of a NaN (R11 notation). -/
def F64.gt (a b : F64) : Bool := !F64.isNaN a && !F64.isNaN b && decide (F64.key b < F64.key a)

/-- `NUM.ge`: the IEEE comparison `>=`, false of a NaN (R11 notation). -/
def F64.ge (a b : F64) : Bool := !F64.isNaN a && !F64.isNaN b && decide (F64.key b ≤ F64.key a)

/-- `r` is the number nearest to `q`, and of two equally near the one whose significand is even: "round-to-nearest,
ties-to-even" (R113). -/
def F64.IsNearestEven (q : ℚ) (r : F64) : Prop :=
  ∀ c : F64, F64.isFinite c = true →
    |F64.toRat r - q| ≤ |F64.toRat c - q| ∧
    (|F64.toRat r - q| = |F64.toRat c - q| → F64.toRat c = F64.toRat r ∨ F64.mag r % 2 = 0)

/-- `r` is what the exact value `q` rounds to: the nearest finite number, ties to even, below half a last place above the
largest finite number, and from there on the infinity of its sign (R113; no saturation, `91_not_in_source.md` N10). -/
def F64.IsRounded (q : ℚ) (r : F64) : Prop :=
  (|q| < 2 ^ 1024 - 2 ^ 970 → F64.isFinite r = true ∧ F64.IsNearestEven q r) ∧
  (2 ^ 1024 - 2 ^ 970 ≤ |q| → r = F64.inf (decide (q < 0)))

end Sys2Proof
end

