-- ==== Sys2Proof/Machine/Num.lean ====
section
/-! DEFINITION. The parameter `NUM` (R7): the record of operations every formula is evaluated in, one operation at a time
(R8), and its instance `F64` (R7, R9, R113).  The instance `REAL` is `Machine/Real.lean`. -/

namespace Sys2Proof.Machine

/-- A decimal literal `mant * 10^exp`, negated if `neg`: the operand of `NUM.lit` (R7). -/
structure Decimal where
  neg : Bool
  mant : Nat
  exp : Int
  deriving DecidableEq, Repr

/-- A number system (R7): "The rules assume of these functions only that each is a total function of its operands." -/
structure Num (α : Type) where
  zero : α
  one : α
  two : α
  four : α
  ofNat : Nat → α
  add : α → α → α
  sub : α → α → α
  mul : α → α → α
  div : α → α → α
  cos : α → α
  pi : α
  lit : Decimal → α
  gt : α → α → Bool
  ge : α → α → Bool
  isZero : α → Bool
  isFinite : α → Bool

/-- `NUM = F64` with the cosine `cos` (R7, R9, R113). -/
def Num.f64With (cos : F64 → F64) : Num F64 where
  zero := 0x0000000000000000#64
  one := 0x3FF0000000000000#64
  two := 0x4000000000000000#64
  four := 0x4010000000000000#64
  ofNat := F64.ofNat
  add := F64.add
  sub := F64.sub
  mul := F64.mul
  div := F64.div
  cos := cos
  pi := 0x400921FB54442D18#64
  lit := fun d => F64.ofDecimal d.neg d.mant d.exp
  gt := F64.gt
  ge := F64.ge
  isZero := F64.isZero
  isFinite := F64.isFinite

/-- The number system of the machine: `F64` with the configuration function `COS` (R9). -/
def Num.f64 : Num F64 := Num.f64With Config.cos

/-- The named property `COS_ZERO`: `COS(+0) = 1` exactly (R9). -/
def CosZero (cos : F64 → F64) : Prop := cos 0x0000000000000000#64 = 0x3FF0000000000000#64

/-- The named laws `NUM_ZERO_LAWS` of R169, "with \"is 0\" read as `isZero`": what a number system needs for an all-zero
frame to have energies 0.  R169 lists the laws of `*`, `+`, `-`, `/` and `>`; that the constant 0 is 0 and that the
divisors 1 and `ofNat(n + 1)` are not is what its division law is applied to (DEDUCED, log entry 11). -/
structure NumZeroLaws {α : Type} (N : Num α) : Prop where
  zero_isZero : N.isZero N.zero = true
  one_not_isZero : N.isZero N.one = false
  ofNat_succ_not_isZero : ∀ n : Nat, N.isZero (N.ofNat (n + 1)) = false
  zero_mul : ∀ a b : α, N.isZero a = true → N.isZero (N.mul a b) = true
  mul_zero : ∀ a b : α, N.isZero b = true → N.isZero (N.mul a b) = true
  zero_add_zero : ∀ a b : α, N.isZero a = true → N.isZero b = true → N.isZero (N.add a b) = true
  zero_sub_zero : ∀ a b : α, N.isZero a = true → N.isZero b = true → N.isZero (N.sub a b) = true
  zero_div : ∀ a b : α, N.isZero a = true → N.isZero b = false → N.isZero (N.div a b) = true
  zero_not_gt_zero : ∀ a b : α, N.isZero a = true → N.isZero b = true → N.gt a b = false

end Sys2Proof.Machine
end

