-- ==== Sys2Proof/Machine/State.lean ====
section
/-! DEFINITION. The state of one instance (R20): configuration, the resonator cell file, the sequencer registers; beside
them the two ports of the block, which the spec makes input and output of a step and not state (R20, R160). -/

namespace Sys2Proof.Machine

/-- Eight values of one kind, one per cell index `k` of `00_scope.md` rule R4 and R50: the low group at `c0` to `c3`, the
high group at `c4` to `c7`. -/
structure Bank (β : Type) where
  c0 : β
  c1 : β
  c2 : β
  c3 : β
  c4 : β
  c5 : β
  c6 : β
  c7 : β
  deriving DecidableEq, Repr

/-- The value at cell index `k`, 0 to 7. -/
def Bank.get {β : Type} (b : Bank β) (k : Fin 8) : β :=
  match k with
  | 0 => b.c0
  | 1 => b.c1
  | 2 => b.c2
  | 3 => b.c3
  | 4 => b.c4
  | 5 => b.c5
  | 6 => b.c6
  | 7 => b.c7

/-- The eight values of a function of the cell index ("for every k in 0..7, together", R101). -/
def Bank.gen {β : Type} (f : Fin 8 → β) : Bank β :=
  ⟨f 0, f 1, f 2, f 3, f 4, f 5, f 6, f 7⟩

/-- One resonator cell: the five fields of R26. -/
structure Cell (α : Type) where
  /-- The resonator output of the most recent sample (`firstPrevious`). -/
  s1 : α
  /-- The resonator output of the sample before that (`secondPrevious`). -/
  s2 : α
  /-- Running sum of squared windowed samples, with the stored clamp of R103 (`totalPower`). -/
  tp : α
  /-- Number of samples since the last reset (`sampleCount`). -/
  cnt : Nat
  /-- The normalized energy after the most recent sample (`energy`). -/
  en : α
  deriving DecidableEq, Repr

/-- The configuration registers, fixed at construction (R20 (a), R21, R22, R36), and the width parameter `LEN_W` (R10).
`FREQ`, `COEFF`, the window literals and `SYM` are functions of these or constants (R23, R24, R130, R144). -/
structure Cfg (α : Type) where
  /-- `CFG.SAMPLE_RATE` (R5, R21). -/
  sampleRate : α
  /-- `CFG.ENERGY_THRESHOLD` (R6, R22). -/
  energyThreshold : α
  /-- `LEN_W` (R10). -/
  lenW : Nat
  deriving DecidableEq, Repr

/-- The sequencer's `mode` register.  Its fourth code, 3, "is never reached" and is "not a state" (R30,
`93_implementation_defined.md` RV5). -/
inductive Mode where
  | idle | acc | fault
  deriving DecidableEq, Repr

/-- The state R20 lists, in any number system `NUM` with carrier `α` (R7). -/
structure Block (α : Type) where
  /-- Configuration (R20 (a)). -/
  cfg : Cfg α
  /-- The resonator cell file (R26). -/
  cells : Bank (Cell α)
  /-- `mode` (R30). -/
  mode : Mode
  /-- `len` (R30): the frame length in `ACC`. -/
  len : Nat
  /-- `idx` (R30): samples of the current frame accepted so far. -/
  idx : Nat
  /-- `fcode` (R30): why the instance faulted; 0 unless `mode = FAULT`. -/
  fcode : BitVec 3
  deriving DecidableEq, Repr

/-- A result event with `res_valid = 1` (R33, R76).  A step without one has none (`93_implementation_defined.md` RV6). -/
structure Result (α : Type) where
  /-- `res_detect` -/
  detect : Bool
  /-- `res_code` -/
  code : BitVec 4
  /-- `res_char` -/
  char : BitVec 8
  /-- `res_energy[0..7]` -/
  energy : Bank α
  deriving DecidableEq, Repr

/-- What the host presents to one step: the reset input and the command word (R160, R220). -/
structure PortInput where
  rst : Bool
  cmd : CmdWord
  deriving DecidableEq, Repr

/-- The state of an instance under `NUM = F64`, with its two ports. -/
structure State extends Block F64 where
  /-- OUTPUT of the step that led here: its result event, `none` when `res_valid = 0` (R33).  Every step writes it, so
  the event lasts one step and is "not latched". -/
  result : Option (Result F64)
  /-- INPUT of the steps to come: what the host will present, next step first.  The host owns it; a step takes the first
  entry.  When it is empty the host has nothing to send, and "A host with nothing to send presents `NOP`" (R70). -/
  port : List PortInput
  deriving DecidableEq, Repr

/-- Reasons for a step to stop the machine.  There are none: "The step is a total function" (R160).  A fault of the block
(R190) is a next state in which `mode = FAULT`, as R195 says, and never an outcome of this kind. -/
inductive Fault where
  deriving DecidableEq, Repr

/-- Reasons to refuse an instruction. -/
inductive Refusal where
  /-- An instruction without a meaning yet; raised only by an arm of `exec`, and safe.  No arm raises it. -/
  | notModelled (mnemonic : String)
  deriving DecidableEq, Repr

/-- A cell in the reset state (R34), `zero` being the number system's 0. -/
def Cell.reset {α : Type} (zero : α) : Cell α :=
  { s1 := zero, s2 := zero, tp := zero, cnt := 0, en := zero }

/-- The reset state of R34 of an instance with configuration `cfg`. -/
def Block.resetState {α : Type} (zero : α) (cfg : Cfg α) : Block α :=
  { cfg := cfg, cells := Bank.gen fun _ => Cell.reset zero, mode := .idle, len := 0, idx := 0, fcode := 0#3 }

/-- The default configuration (R5, R6, R10). -/
def Cfg.default : Cfg F64 :=
  { sampleRate := Config.defaultSampleRate, energyThreshold := Config.defaultEnergyThreshold,
    lenW := Config.defaultLenW }

/-- The instance of default configuration right after reset (R34, R220): no result event, and nothing presented yet. -/
def State.reset : State :=
  { toBlock := Block.resetState 0#64 Cfg.default, result := none, port := [] }

end Sys2Proof.Machine
end

