-- ==== Sys2Proof/Machine/Tables.lean ====
section
/-! DEFINITION. The read-only tables: `FREQ` (R4, R23) and `SYM` (R25, R144), and the index arithmetic of the two groups
(R4, R50, R142). -/

namespace Sys2Proof.Machine

/-- `FREQ[k]`, in Hz: the low group at 0 to 3, the high group at 4 to 7, each in the source's order (R4, R23). -/
def freq (k : Fin 8) : Nat :=
  Bank.get ⟨697, 770, 852, 941, 1209, 1336, 1477, 1633⟩ k

/-- The two frequency groups (R4). -/
inductive Group where
  | low | high
  deriving DecidableEq, Repr

/-- The first cell index of a group: 0 or 4 (R141). -/
def Group.base : Group → Nat
  | .low => 0
  | .high => 4

/-- The cell index `base + j` of position `j` of a group (R141). -/
def Group.cell (g : Group) (j : Fin 4) : Fin 8 :=
  ⟨g.base + j.val, by have := j.isLt; cases g <;> simp only [Group.base] <;> omega⟩

/-- `code = 4*l + h` (R142). -/
def symbolCode (l h : Fin 4) : Fin 16 := ⟨4 * l.val + h.val, by have := l.isLt; have := h.isLt; omega⟩

/-- The sixteen symbols in the order of their codes: the keypad of R144, row by row.  The source fixes `SYM[0]` and
`SYM[13]`; the spec marks the others as general knowledge (R144, `92_eei_decisions.md` D28; log entry 8). -/
def symTable : List Char :=
  ['1', '2', '3', 'A',
   '4', '5', '6', 'B',
   '7', '8', '9', 'C',
   '*', '0', '#', 'D']

/-- `SYM[code]` (R25, R144). -/
def sym (code : Fin 16) : Char := symTable.get code

/-- `res_char`: the 7-bit ASCII code, zero-extended to 8 bits (R77). -/
def asciiCode (c : Char) : BitVec 8 := BitVec.ofNat 8 c.toNat

end Sys2Proof.Machine
end

