-- ==== Sys2Proof/Machine/FilterBank.lean ====
section
/-! DEFINITION. The Filter Bank (R100): `FB.RESET`, `FB.SAMPLE`, `FB.ENERGIES`, and the coefficient table. -/

namespace Sys2Proof.Machine

/-- `COEFF[k] = 2 * cos( ((2 * PI) * ofNat(FREQ[k])) / CFG.SAMPLE_RATE )` (R24).  A function of the configuration, which
never changes (R36), so its value is the one "computed once at construction". -/
def coeff {α : Type} (N : Num α) (cfg : Cfg α) (k : Fin 8) : α :=
  N.mul N.two (N.cos (N.div (N.mul (N.mul N.two N.pi) (N.ofNat (freq k))) cfg.sampleRate))

/-- Line 1 of R102: `y = (x + COEFF[k] * s1) - s2`. -/
def cellOutput {α : Type} (N : Num α) (c x : α) (cell : Cell α) : α :=
  N.sub (N.add x (N.mul c cell.s1)) cell.s2

/-- Line 2 of R102: `p = (s2 * s2 + y * y) - (COEFF[k] * y) * s2`, with the pre-shift `s2` (R105). -/
def cellPower {α : Type} (N : Num α) (c y : α) (cell : Cell α) : α :=
  N.sub (N.add (N.mul cell.s2 cell.s2) (N.mul y y)) (N.mul (N.mul c y) cell.s2)

/-- Lines 3 and 4 of R102: `t = tp + x * x`, and 1 in its place if `t == 0` (R103). -/
def cellTotalPower {α : Type} (N : Num α) (x : α) (cell : Cell α) : α :=
  let t := N.add cell.tp (N.mul x x)
  bif N.isZero t then N.one else t

/-- `FB.SAMPLE(x)` on one cell of coefficient `c` (R102, lines 1 to 7; R104, R106). -/
def cellStep {α : Type} (N : Num α) (c x : α) (cell : Cell α) : Cell α :=
  let y := cellOutput N c x cell
  let p := cellPower N c y cell
  let t := cellTotalPower N x cell
  let n := cell.cnt + 1
  { s1 := y, s2 := cell.s1, tp := t, cnt := n, en := N.div (N.div p t) (N.ofNat n) }

/-- `FB.SAMPLE(x)` on the bank: every cell, each on its own fields and coefficient (R102, R107). -/
def bankStep {α : Type} (N : Num α) (cfg : Cfg α) (x : α) (cells : Bank (Cell α)) : Bank (Cell α) :=
  Bank.gen fun k => cellStep N (coeff N cfg k) x (cells.get k)

/-- `FB.RESET` (R101): every field of every cell becomes 0. -/
def bankReset {α : Type} (N : Num α) : Bank (Cell α) := Bank.gen fun _ => Cell.reset N.zero

/-- `FB.ENERGIES` (R109): `E[k] = cell[k].en`. -/
def bankEnergies {α : Type} (cells : Bank (Cell α)) : Bank α := Bank.gen fun k => (cells.get k).en

end Sys2Proof.Machine
end

