-- ==== Sys2Proof/Syntax.lean ====
section
/-! DEFINITION. The command set (R71): one constructor per row of `spec/opcode_table.json`. -/

namespace Sys2Proof

/-- A decoded command.  Every constructor keeps the whole 64-bit payload, the ignored payloads of `NOP` and `RSVD`
(R74) included, so that decoding loses no bit of the word. -/
inductive Instr where
  /-- Row `NOP`, `op = 00`: the idle beat; `data` is ignored (R74, R161). -/
  | nop (data : Payload)
  /-- Row `BEGIN`, `op = 01`, reserved bits `data[63:LEN_W]` zero: the payload is the frame length `N` (R73, R162). -/
  | beginFrame (data : Payload)
  /-- Row `BEGIN.RSVBITS`, `op = 01` with some reserved bit set: an illegal encoding of `BEGIN` (R75 (b), R162). -/
  | beginRsvbits (data : Payload)
  /-- Row `SAMPLE`, `op = 10`: the payload is the sample's binary64 bit pattern (R72, R163). -/
  | sample (x : F64)
  /-- Row `RSVD`, `op = 11`: reserved; `data` is ignored (R74, R75 (a), R165). -/
  | rsvd (data : Payload)
  deriving DecidableEq, Repr

end Sys2Proof
end

