-- ==== Sys2Proof/WellFormed.lean ====
section
/-! DEFINITION. Which decoded commands are the reading of some command word, at a given `LEN_W` (R10, R73). -/

namespace Sys2Proof

/-- `LEN_W` lies in its legal range 1 to 64 (R10). -/
def lenWLegal (lenW : Nat) : Bool := decide (1 ≤ lenW) && decide (lenW ≤ 64)

/-- `i` is well formed at width `lenW`: a `BEGIN` payload has its reserved bits `data[63:LEN_W]` zero and a
`BEGIN.RSVBITS` payload does not (R73, R75 (b)); every payload of the other rows is legal (R72, R74).  `LEN_W` itself must be
legal, since no instance exists at another width (R10, `93_implementation_defined.md` U4). -/
def Instr.wellFormed (lenW : Nat) : Instr → Bool
  | .nop _ => lenWLegal lenW
  | .beginFrame data => lenWLegal lenW && decide (data.toNat < 2 ^ lenW)
  | .beginRsvbits data => lenWLegal lenW && decide (2 ^ lenW ≤ data.toNat)
  | .sample _ => lenWLegal lenW
  | .rsvd _ => lenWLegal lenW

end Sys2Proof
end

