-- ==== Sys2Proof/Decode.lean ====
section
/-! DEFINITION. The decoder of a command word (R70 to R75, R81), total, and after it the encoder (R79). -/

namespace Sys2Proof

/-- Field `op`, bits 65:64 (R70). -/
def opField (w : CmdWord) : BitVec 2 := w.extractLsb' 64 2

/-- Field `data`, bits 63:0 (R70). -/
def dataField (w : CmdWord) : Payload := w.extractLsb' 0 64

/-- The reserved bits `data[63:LEN_W]` of a `BEGIN` payload, moved down to bit 0 (R73). -/
def reservedBits (lenW : Nat) (data : Payload) : Payload := data >>> lenW

/-- The decoder: `op` selects the row, and a `BEGIN` word belongs to row `BEGIN.RSVBITS` exactly when it has a reserved
bit set (R71, R81 and the table of `30_encoding.md` section 3).  Every word decodes: "no word is undecodable" (R81). -/
def decode (lenW : Nat) (w : CmdWord) : Instr :=
  if opField w = 0b00#2 then .nop (dataField w)
  else if opField w = 0b01#2 then
    if reservedBits lenW (dataField w) = 0#64 then .beginFrame (dataField w) else .beginRsvbits (dataField w)
  else if opField w = 0b10#2 then .sample (dataField w)
  else .rsvd (dataField w)

/-- `{op, data}` as one command word (R70). -/
def commandWord (op : BitVec 2) (data : Payload) : CmdWord := op ++ data

/-- The encoder (R71, R79): the word a command is presented as. -/
def encode : Instr → CmdWord
  | .nop data => commandWord 0b00#2 data
  | .beginFrame data => commandWord 0b01#2 data
  | .beginRsvbits data => commandWord 0b01#2 data
  | .sample x => commandWord 0b10#2 x
  | .rsvd data => commandWord 0b11#2 data

/-- A row of the match and mask table of `30_encoding.md` section 3. -/
structure OpcodeRow where
  mnemonic : String
  matchBits : CmdWord
  mask : CmdWord
  deriving DecidableEq, Repr

/-- A word selects a row when `w & mask = match` (`30_encoding.md` section 3). -/
def OpcodeRow.selects (r : OpcodeRow) (w : CmdWord) : Bool := (w &&& r.mask) == r.matchBits

/-- The match and mask table for `LEN_W = 32`, "rows are tried in this order" (`30_encoding.md` section 3). -/
def opcodeRows : List OpcodeRow :=
  [ ⟨"NOP",           0x00000000000000000#66, 0x30000000000000000#66⟩,
    ⟨"BEGIN",         0x10000000000000000#66, 0x3FFFFFFFF00000000#66⟩,
    ⟨"BEGIN.RSVBITS", 0x10000000000000000#66, 0x30000000000000000#66⟩,
    ⟨"SAMPLE",        0x20000000000000000#66, 0x30000000000000000#66⟩,
    ⟨"RSVD",          0x30000000000000000#66, 0x30000000000000000#66⟩ ]

/-- The mnemonic of the opcode-table row a decoded command comes from. -/
def Instr.mnemonic : Instr → String
  | .nop _ => "NOP"
  | .beginFrame _ => "BEGIN"
  | .beginRsvbits _ => "BEGIN.RSVBITS"
  | .sample _ => "SAMPLE"
  | .rsvd _ => "RSVD"

/-- What the decoder reads, at the default `LEN_W`, from a word whose bits are `w` numbered as the opcode table numbers
them, of which the first `nbits` are given and the others are 0.  `none` only for a number with a bit above the 66 of a
command word. -/
def decodeTableWord (nbits w : Nat) : Option Instr :=
  if w % 2 ^ nbits < 2 ^ 66 then some (decode Config.defaultLenW (BitVec.ofNat 66 (w % 2 ^ nbits))) else none

end Sys2Proof
end

