-- ==== Sys2Proof/Machine/Operands.lean ====
section
/-! DEFINITION. Operand assembly from the payload of a command word (R72, R73, R177). -/

namespace Sys2Proof.Machine

/-- `N = zext(data[LEN_W-1:0])`, the frame length as an unsigned integer (R73). -/
def frameLength (lenW : Nat) (data : Payload) : Nat := data.toNat % 2 ^ lenW

/-- `x = f64(data[63:0])`: the payload is the sample's bit pattern, "all 64 bits used, none reserved" (R72). -/
def sampleOperand (data : Payload) : F64 := data

end Sys2Proof.Machine
end

