-- ==== Sys2Proof/Machine/ToneInterpreter.lean ====
section
/-! DEFINITION. The Tone Interpreter (R140): `GROUPSEL`, `SELECTSYMBOL` and the result they give. -/

namespace Sys2Proof.Machine

/-- The leader of a scan: `best` and `bestE` of R141. -/
structure Leader (α : Type) where
  best : Option (Fin 4)
  bestE : α
  deriving DecidableEq, Repr

/-- One iteration of R141's loop: position `j` replaces the leader when its energy is strictly greater and meets the
threshold. -/
def scanStep {α : Type} (N : Num α) (E : Bank α) (g : Group) (thr : α) (l : Leader α) (j : Fin 4) : Leader α :=
  let e := E.get (g.cell j)
  bif N.gt e l.bestE && N.ge e thr then { best := some j, bestE := e } else l

/-- `GROUPSEL(E, base, thr)` (R141): the scan of positions 0, 1, 2, 3 in this order, from `best = none`, `bestE = 0`. -/
def groupSel {α : Type} (N : Num α) (E : Bank α) (g : Group) (thr : α) : Option (Fin 4) :=
  (([0, 1, 2, 3] : List (Fin 4)).foldl (scanStep N E g thr) { best := none, bestE := N.zero }).best

/-- `SELECTSYMBOL(E, thr)` (R142): the code, or `none` for "no symbol". -/
def selectSymbol {α : Type} (N : Num α) (E : Bank α) (thr : α) : Option (Fin 16) :=
  match groupSel N E .low thr, groupSel N E .high thr with
  | some l, some h => some (symbolCode l h)
  | _, _ => none

/-- The result event of energies `E` (R76, R164 lines 8 and 9). -/
def resultOf {α : Type} (N : Num α) (E : Bank α) (thr : α) : Result α :=
  match selectSymbol N E thr with
  | some code => { detect := true, code := BitVec.ofFin code, char := asciiCode (sym code), energy := E }
  | none => { detect := false, code := 0#4, char := 0x00#8, energy := E }

end Sys2Proof.Machine
end

