-- ==== Sys2Proof/Machine/Window.lean ====
section
/-! DEFINITION. The Window Function (R130 to R134). -/

namespace Sys2Proof.Machine

/-- `A0 = lit("0.426591")` (R130). -/
def windowA0 : Decimal := { neg := false, mant := 426591, exp := -6 }

/-- `A1 = lit("0.496561")` (R130). -/
def windowA1 : Decimal := { neg := false, mant := 496561, exp := -6 }

/-- `A2 = lit("0.076849")` (R130). -/
def windowA2 : Decimal := { neg := false, mant := 76849, exp := -6 }

/-- `WIN(i, N)`, with `n` the frame length `N` (R130):
`(A0 - A1 * cos(((2 * PI) * i) / N)) + A2 * cos(((4 * PI) * i) / N)`. -/
def win {α : Type} (N : Num α) (i n : Nat) : α :=
  let c1 := N.cos (N.div (N.mul (N.mul N.two N.pi) (N.ofNat i)) (N.ofNat n))
  let c2 := N.cos (N.div (N.mul (N.mul N.four N.pi) (N.ofNat i)) (N.ofNat n))
  N.add (N.sub (N.lit windowA0) (N.mul (N.lit windowA1) c1)) (N.mul (N.lit windowA2) c2)

/-- `xw = x * WIN(i, N)` (R134). -/
def windowed {α : Type} (N : Num α) (x : α) (i n : Nat) : α := N.mul x (win N i n)

end Sys2Proof.Machine
end

