-- ==== Sys2Proof/Machine/Ops.lean ====
section
/-! DEFINITION. The named operations over the state of an instance, each giving the next state and the output of the step
(R160): its result event, `none` when `res_valid = 0`. -/

namespace Sys2Proof.Machine

/-- A next state and the step's result event (R160). -/
abbrev Output (α : Type) := Block α × Option (Result α)

/-- The step that changes nothing and emits nothing: `S' = S`, `res_valid = 0` (R161, R166). -/
def Block.unchanged {α : Type} (b : Block α) : Output α := (b, none)

/-- `FB.RESET` of the instance's bank (R101). -/
def Block.fbReset {α : Type} (N : Num α) (b : Block α) : Block α := { b with cells := bankReset N }

/-- `FB.SAMPLE(xw)` on the instance's bank (R102). -/
def Block.fbSample {α : Type} (N : Num α) (xw : α) (b : Block α) : Block α :=
  { b with cells := bankStep N b.cfg xw b.cells }

/-- `FB.ENERGIES` of the instance's bank (R109). -/
def Block.energies {α : Type} (b : Block α) : Bank α := bankEnergies b.cells

/-- The fault causes (R191). -/
inductive FaultCode where
  | illegalCmd | lenZero | beginInFrame | sampleOutsideFrame | sampleNonfinite
  deriving DecidableEq, Repr

/-- The value of `fcode` for a cause: 1 to 5 (R191). -/
def faultBits : FaultCode → BitVec 3
  | .illegalCmd => 1#3
  | .lenZero => 2#3
  | .beginInFrame => 3#3
  | .sampleOutsideFrame => 4#3
  | .sampleNonfinite => 5#3

/-- Fault entry, `raise Fault(code)` (R195): "and nothing else". -/
def Block.raiseFault {α : Type} (c : FaultCode) (b : Block α) : Output α :=
  ({ b with mode := .fault, fcode := faultBits c }, none)

/-- A step with `rst = 1` (R220), from any mode: "The only way out of `FAULT` is `rst`" (R196). -/
def Block.rst {α : Type} (N : Num α) (b : Block α) : Output α :=
  ({ b.fbReset N with mode := .idle, idx := 0, len := 0, fcode := 0#3 }, none)

/-- What every command does first: in `mode = FAULT` it is ignored (R160, R166, R194 (2)). -/
def Block.unlessFaulted {α : Type} (b : Block α) (act : Output α) : Output α :=
  if b.mode = .fault then b.unchanged else act

/-- The whole state takes the output of a step: the next state of the block, and the result event on the output port. -/
def State.commit (s : State) (o : Output F64) : State := { s with toBlock := o.1, result := o.2 }

end Sys2Proof.Machine
end

