-- ==== Sys2Proof/Machine/Commands.lean ====
section
/-! DEFINITION. The commands of the DTMF Decoder (R160 to R166), in any number system, and the meanings of the rows of
the opcode table under `NUM = F64`. -/

namespace Sys2Proof.Machine

/-- `NOP` (R161). -/
def Block.nop {α : Type} (b : Block α) : Output α := b.unchanged

/-- `BEGIN` with payload `data` (R162, lines 1 to 5), in `IDLE` or `ACC`. -/
def Block.beginFrame {α : Type} (N : Num α) (data : Payload) (b : Block α) : Output α :=
  if b.mode = .acc then b.raiseFault .beginInFrame
  else if reservedBits b.cfg.lenW data ≠ 0#64 then b.raiseFault .illegalCmd
  else if frameLength b.cfg.lenW data = 0 then b.raiseFault .lenZero
  else ({ b.fbReset N with len := frameLength b.cfg.lenW data, idx := 0, mode := .acc }, none)

/-- Frame completion (R164, lines 7 to 11), on the cells as the last sample's `FB.SAMPLE` left them. -/
def Block.complete {α : Type} (N : Num α) (b : Block α) : Output α :=
  ({ b.fbReset N with mode := .idle, idx := 0, len := 0 }, some (resultOf N b.energies b.cfg.energyThreshold))

/-- `SAMPLE x` (R163, lines 1 to 6), in `IDLE` or `ACC`. -/
def Block.sample {α : Type} (N : Num α) (x : α) (b : Block α) : Output α :=
  if b.mode = .idle then b.raiseFault .sampleOutsideFrame
  else if N.isFinite x = false then b.raiseFault .sampleNonfinite
  else
    let b' := b.fbSample N (windowed N x b.idx b.len)
    if b.idx + 1 < b.len then ({ b' with idx := b.idx + 1 }, none) else b'.complete N

/-- `RSVD` (R165), in `IDLE` or `ACC`. -/
def Block.rsvd {α : Type} (b : Block α) : Output α := b.raiseFault .illegalCmd

/-- A command in any number system: under `REAL` "the command word is not a bit vector and a model carries `x` as a
value" (R72). -/
inductive Command (α : Type) where
  | nop
  | beginFrame (data : Payload)
  | sample (x : α)
  | rsvd
  deriving DecidableEq, Repr

/-- The step function of R160, in any number system: `rst`, then `FAULT`, then the command. -/
def Block.step {α : Type} (N : Num α) (b : Block α) (rst : Bool) (c : Command α) : Output α :=
  if rst then b.rst N
  else if b.mode = .fault then b.unchanged
  else match c with
    | .nop => b.nop
    | .beginFrame data => b.beginFrame N data
    | .sample x => b.sample N x
    | .rsvd => b.rsvd

/-- The command of a decoded word, under `NUM = F64`: both rows of `op = 01` are the command `BEGIN` (R160, R162). -/
def commandOf : Instr → Command F64
  | .nop _ => .nop
  | .beginFrame data => .beginFrame data
  | .beginRsvbits data => .beginFrame data
  | .sample x => .sample (sampleOperand x)
  | .rsvd _ => .rsvd

/-- Row `NOP` (R161; R166 in `FAULT`). -/
def execNop (_data : Payload) (s : State) : Host.Outcome State Fault Refusal :=
  .next (s.commit (s.toBlock.unlessFaulted s.toBlock.nop))

/-- Row `BEGIN` (R162; R166 in `FAULT`). -/
def execBegin (data : Payload) (s : State) : Host.Outcome State Fault Refusal :=
  .next (s.commit (s.toBlock.unlessFaulted (s.toBlock.beginFrame Num.f64 data)))

/-- Row `BEGIN.RSVBITS`, which "executes rule R162" (`opcode_table.json`; R166 in `FAULT`). -/
def execBeginRsvbits (data : Payload) (s : State) : Host.Outcome State Fault Refusal :=
  .next (s.commit (s.toBlock.unlessFaulted (s.toBlock.beginFrame Num.f64 data)))

/-- Row `SAMPLE` (R163, R164; R166 in `FAULT`). -/
def execSample (data : Payload) (s : State) : Host.Outcome State Fault Refusal :=
  .next (s.commit (s.toBlock.unlessFaulted (s.toBlock.sample Num.f64 (sampleOperand data))))

/-- Row `RSVD` (R165; R166 in `FAULT`). -/
def execRsvd (_data : Payload) (s : State) : Host.Outcome State Fault Refusal :=
  .next (s.commit (s.toBlock.unlessFaulted s.toBlock.rsvd))

end Sys2Proof.Machine
end

