-- ==== Sys2Proof/Machine/Dispatch.lean ====
section
/-! DEFINITION. One arm per constructor of `Instr`, each one call of its meaning (R160, R166). -/

namespace Sys2Proof.Machine

def exec (i : Instr) (s : State) : Host.Outcome State Fault Refusal :=
  match i with
  | .nop data => Sys2Proof.Machine.execNop data s
  | .beginFrame data => Sys2Proof.Machine.execBegin data s
  | .beginRsvbits data => Sys2Proof.Machine.execBeginRsvbits data s
  | .sample x => Sys2Proof.Machine.execSample x s
  | .rsvd data => Sys2Proof.Machine.execRsvd data s

end Sys2Proof.Machine
end

