-- ==== Sys2Proof/Machine/Port.lean ====
section
/-! DEFINITION. The command port (R70, R160): what the next step is given, and the step with `rst = 1`. -/

namespace Sys2Proof.Machine

/-- The input of a step for which the host has nothing to send: `NOP`, not reset (R70). -/
def idleInput : PortInput := { rst := false, cmd := 0x00000000000000000#66 }

/-- The input of the next step. -/
def State.nextInput (s : State) : PortInput := s.port.headD idleInput

/-- The port after that input has been taken. -/
def State.takeInput (s : State) : State := { s with port := s.port.tail }

/-- The step with `rst = 1` (R220); "`cmd` is ignored" (R160). -/
def resetStep (s : State) : Host.Outcome State Fault Refusal := .next (s.commit (s.toBlock.rst Num.f64))

/-- The host presents a word of which `nbits` bits are given, the others 0, before anything else it presents. -/
def State.presentFirst (s : State) (nbits w : Nat) : State :=
  { s with port := { rst := false, cmd := BitVec.ofNat 66 (w % 2 ^ nbits) } :: s.port }

end Sys2Proof.Machine
end

