-- ==== Sys2Proof/Machine/Step.lean ====
section
/-! DEFINITION. One step (R160): the next input of the port, `rst` first, else the decoded command. -/

namespace Sys2Proof.Machine

/-- R160, on the input at the head of the port.  One word, one step (R70): there is no
length to find. -/
def step (s : State) : Host.Outcome State Fault Refusal :=
  if s.nextInput.rst then resetStep s.takeInput
  else exec (decode s.cfg.lenW s.nextInput.cmd) s.takeInput

/-- The state in which the next step is given that command word (the host's fixed name; log entry 2). -/
def State.withFetchWord (s : State) (nbits w : Nat) : State := s.presentFirst nbits w

end Sys2Proof.Machine
end

