-- ==== Sys2Proof/Machine/Construct.lean ====
section
/-! DEFINITION. Construction (R201, R222): the parameters are checked, and an illegal set yields no instance. -/

namespace Sys2Proof.Machine

/-- The legal parameters: `SAMPLE_RATE` finite and greater than 0 (R5), `ENERGY_THRESHOLD` finite (R6), `LEN_W` from 1 to
64 (R10). -/
def Cfg.legal {α : Type} (N : Num α) (cfg : Cfg α) : Bool :=
  N.isFinite cfg.sampleRate && N.gt cfg.sampleRate N.zero && N.isFinite cfg.energyThreshold && lenWLegal cfg.lenW

/-- An instance of these parameters in the reset state, or none (R201, R222). -/
def Block.construct {α : Type} (N : Num α) (cfg : Cfg α) : Option (Block α) :=
  if cfg.legal N then some (Block.resetState N.zero cfg) else none

/-- An instance under `NUM = F64`, with nothing presented to it yet (R222). -/
def State.construct (cfg : Cfg F64) : Option State :=
  (Block.construct Num.f64 cfg).map fun b => { toBlock := b, result := none, port := [] }

end Sys2Proof.Machine
end

