-- ==== Sys2Proof/Machine/Frame.lean ====
section
/-! DEFINITION. The frame as a whole (R168) and the pseudo-commands that express it (R80). -/

namespace Sys2Proof.Machine

/-- `for i = .. : FB.SAMPLE( b[i] * WIN(i, N) )` over the samples `xs` at positions `i`, `i + 1`, … of a frame of length
`n` (R168). -/
def feedFrame {α : Type} (N : Num α) (cfg : Cfg α) (n : Nat) : Nat → List α → Bank (Cell α) → Bank (Cell α)
  | _, [], cells => cells
  | i, x :: xs, cells => feedFrame N cfg n (i + 1) xs (bankStep N cfg (windowed N x i n) cells)

/-- The energies after the last sample of a frame (R168). -/
def frameEnergies {α : Type} (N : Num α) (cfg : Cfg α) (xs : List α) : Bank α :=
  bankEnergies (feedFrame N cfg xs.length 0 xs (bankReset N))

/-- The source's `processBuffer(b)` as one function (R168), its result as the result event carries it (R76). -/
def processBuffer {α : Type} (N : Num α) (cfg : Cfg α) (xs : List α) : Result α :=
  resultOf N (frameEnergies N cfg xs) cfg.energyThreshold

/-- `FRAME x0, ..., x(N-1)`: `BEGIN N` and `N` `SAMPLE`s (R80).  It "does not assemble" without operands, nor, as `BEGIN N`
itself, when `N >= 2^LEN_W` (R79). -/
def frameCommands (lenW : Nat) (xs : List F64) : Option (List Instr) :=
  if xs = [] ∨ 2 ^ lenW ≤ xs.length then none
  else some (.beginFrame (BitVec.ofNat 64 xs.length) :: xs.map .sample)

/-- `SILENCE n`: a `FRAME` of `n` samples all `0.0` (R80). -/
def silenceCommands (lenW n : Nat) : Option (List Instr) := frameCommands lenW (List.replicate n 0x0000000000000000#64)

/-- The commands that are not `NOP`. -/
def nonNops (cmds : List Instr) : List Instr :=
  cmds.filter fun i => match i with
    | .nop _ => false
    | .beginFrame _ | .beginRsvbits _ | .sample _ | .rsvd _ => true

/-- Commands as the host presents them, one a step (R70). -/
def present (cmds : List Instr) : List PortInput := cmds.map fun i => { rst := false, cmd := encode i }

/-- The input of a reset step (R220); the command word is ignored. -/
def resetInput : PortInput := { rst := true, cmd := 0x00000000000000000#66 }

end Sys2Proof.Machine
end

