-- ==== Sys2Proof/Machine/Assembler.lean ====
section
/-! DEFINITION. The textual form of commands (R79), pseudo-commands and directives (R80), and what each assembles to. -/

namespace Sys2Proof.Machine

/-- The operand of `SAMPLE`: a decimal literal or an exact bit pattern (R79). -/
inductive AsmOperand where
  | literal (d : Decimal)
  | bits (x : F64)
  deriving DecidableEq, Repr

/-- One line of a program (R79, R80). -/
inductive AsmLine where
  | nop
  | beginN (n : Nat)
  | sample (x : AsmOperand)
  | rsvd
  | frame (xs : List AsmOperand)
  | silence (n : Nat)
  | reset
  | config (sampleRate energyThreshold : Decimal)
  deriving DecidableEq, Repr

/-- The binary64 a `SAMPLE` operand stands for: "read with `NUM.lit`", or the pattern itself (R79). -/
def AsmOperand.value (x : AsmOperand) : F64 :=
  match x with
  | .literal d => Num.f64.lit d
  | .bits b => b

/-- The commands a line assembles to; `none` is an assembly error.  "`NOP` and `RSVD` assemble with `data = 0`", `BEGIN N`
"is an assembly error if `N >= 2^LEN_W`" (R79), and the directives are "not a command word" (R80). -/
def assembleCommands (lenW : Nat) : AsmLine → Option (List Instr)
  | .nop => some [.nop 0#64]
  | .beginN n => if n < 2 ^ lenW then some [.beginFrame (BitVec.ofNat 64 n)] else none
  | .sample x => some [.sample x.value]
  | .rsvd => some [.rsvd 0#64]
  | .frame xs => frameCommands lenW (xs.map AsmOperand.value)
  | .silence n => silenceCommands lenW n
  | .reset => none
  | .config _ _ => none

/-- What a line below the head of a program makes the host present: `.reset` is "one step with the `rst` input asserted"
(R80).  `.config` belongs "at the head of a program", and R80 is silent on one further down: that it is an error there is
the model's (DESIGN CHOICE, log entry 21). -/
def assembleLine (lenW : Nat) : AsmLine → Option (List PortInput)
  | .reset => some [resetInput]
  | l => (assembleCommands lenW l).map present

/-- The inputs of a sequence of lines. -/
def assembleLines (lenW : Nat) (ls : List AsmLine) : Option (List PortInput) :=
  (ls.mapM (assembleLine lenW)).map List.flatten

/-- A program: `.config` at its head makes the instance, and the lines are what the host presents to it (R80).  R80 does
not say whether `.config` may be left out: that a program without it is not loaded is the model's (DESIGN CHOICE, log entry
21), and so are that a second `.config` further down is an error and that `LEN_W`, which `.config` does not name, is given
beside the text. -/
def loadProgram (lenW : Nat) : List AsmLine → Option State
  | .config sr thr :: ls => do
    let s ← State.construct { sampleRate := Num.f64.lit sr, energyThreshold := Num.f64.lit thr, lenW := lenW }
    let inputs ← assembleLines lenW ls
    pure { s with port := inputs }
  | _ => none

/-- The value of a digit in base 10 or 16. -/
def digitValue (base : Nat) (c : Char) : Option Nat :=
  let v :=
    if '0' ≤ c ∧ c ≤ '9' then some (c.toNat - '0'.toNat)
    else if 'a' ≤ c ∧ c ≤ 'f' then some (c.toNat - 'a'.toNat + 10)
    else if 'A' ≤ c ∧ c ≤ 'F' then some (c.toNat - 'A'.toNat + 10)
    else none
  v.bind fun d => if d < base then some d else none

/-- The digits of a number, folded onto `acc`. -/
def parseDigits (base : Nat) : Nat → List Char → Option Nat
  | acc, [] => some acc
  | acc, c :: cs => (digitValue base c).bind fun d => parseDigits base (acc * base + d) cs

/-- A natural number, "decimal or 0x-hexadecimal" (R79). -/
def parseNat : List Char → Option Nat
  | [] => none
  | '0' :: 'x' :: c :: cs => parseDigits 16 0 (c :: cs)
  | c :: cs => parseDigits 10 0 (c :: cs)

/-- An optional minus sign and what follows it. -/
def parseSign : List Char → Bool × List Char
  | '-' :: cs => (true, cs)
  | cs => (false, cs)

/-- The exponent part of a decimal literal, after its `e`. -/
def parseExponent (cs : List Char) : Option Int :=
  match parseSign cs with
  | (_, []) => none
  | (neg, ds) => (parseDigits 10 0 ds).map fun n => if neg then - (n : Int) else (n : Int)

/-- "a decimal literal such as -0.5 or 1e-3" (R79): sign, digits, fraction, exponent.  R79 leaves the grammar open: that
the digits after a point may be missing (`1.`, `1.e3`) and those before it may not is the model's (DESIGN CHOICE, log
entry 17). -/
def parseDecimal (cs : List Char) : Option Decimal := do
  let (neg, body) := parseSign cs
  let mantissa := body.takeWhile (· != 'e')
  let whole := mantissa.takeWhile (· != '.')
  let fraction := (mantissa.dropWhile (· != '.')).drop 1
  let exp ← match body.dropWhile (· != 'e') with
    | [] => some 0
    | _ :: es => parseExponent es
  let mant ← if whole = [] then none else parseDigits 10 0 (whole ++ fraction)
  pure { neg := neg, mant := mant, exp := exp - fraction.length }

/-- A `SAMPLE` operand: a decimal literal, "or f64:0x<16 hex digits> for an exact binary64 bit pattern" (R79). -/
def parseOperand : List Char → Option AsmOperand
  | 'f' :: '6' :: '4' :: ':' :: '0' :: 'x' :: hs =>
    if hs.length = 16 then (parseDigits 16 0 hs).map fun n => .bits (BitVec.ofNat 64 n) else none
  | cs => (parseDecimal cs).map .literal

/-- The parts of a text between separators, in order. -/
def splitAtChar (sep : Char) : List Char → List (List Char)
  | [] => [[]]
  | c :: cs =>
    if c = sep then [] :: splitAtChar sep cs
    else match splitAtChar sep cs with
      | [] => [[c]]
      | w :: ws => (c :: w) :: ws

/-- The words of a text. -/
def textWords (cs : List Char) : List (List Char) := (splitAtChar ' ' cs).filter (· ≠ [])

/-- The value of a `.config` field `NAME=<v>` (R80).  R80 does not define the form of `<v>`: that it is a decimal literal,
and not the `f64:0x` form of `SAMPLE` too, is the model's (DESIGN CHOICE, log entry 20). -/
def parseField (name : List Char) (cs : List Char) : Option Decimal :=
  if cs.take (name.length + 1) = name ++ ['='] then parseDecimal (cs.drop (name.length + 1)) else none

/-- The operands of `FRAME`, separated by commas (R80). -/
def parseOperands (cs : List Char) : Option (List AsmOperand) :=
  (splitAtChar ',' cs).mapM fun part =>
    match textWords part with
    | [w] => parseOperand w
    | _ => none

/-- One line of text, its comment left out: "`;` starts a comment" (R79, R80).  `none` is a syntax error, `some none` a
line without a command.  R80 does not define the form of `n` in `SILENCE n`, nor that of the samples of `FRAME`: that they
are written as the operands of `BEGIN` and of `SAMPLE` are is the model's (DESIGN CHOICE, log entry 17), and so is that a
line may hold no command. -/
def parseLine (cs : List Char) : Option (Option AsmLine) :=
  let code := cs.takeWhile (· != ';')
  match textWords code with
  | [] => some none
  | op :: args =>
    if op = "FRAME".toList then (parseOperands ((code.dropWhile (· = ' ')).drop op.length)).map fun xs => some (.frame xs)
    else match args with
      | [] =>
        if op = "NOP".toList then some (some .nop)
        else if op = "RSVD".toList then some (some .rsvd)
        else if op = ".reset".toList then some (some .reset)
        else none
      | [a] =>
        if op = "BEGIN".toList then (parseNat a).map fun n => some (.beginN n)
        else if op = "SAMPLE".toList then (parseOperand a).map fun x => some (.sample x)
        else if op = "SILENCE".toList then (parseNat a).map fun n => some (.silence n)
        else none
      | [a, b] =>
        if op = ".config".toList then do
          let sr ← parseField "SAMPLE_RATE".toList a
          let thr ← parseField "ENERGY_THRESHOLD".toList b
          pure (some (.config sr thr))
        else none
      | _ => none

end Sys2Proof.Machine
end

