-- ==== Sys2Proof/Machine/Real.lean ====
section
/-! DEFINITION. The instance `NUM = REAL` (R7): "exact real arithmetic", the reference of the source's properties; and the
accuracy of `COS` (R9).  The machine's step does not use this file. -/

namespace Sys2Proof.Machine

/-- The value of a decimal literal (R7: `lit` is exact under `REAL`). -/
noncomputable def Decimal.toReal (d : Decimal) : ℝ :=
  (if d.neg then -1 else 1) * (d.mant : ℝ) * (10 : ℝ) ^ d.exp

/-- `NUM = REAL`: "every value finite, `cos` and `PI` exact" (R7).  R7 makes `div` total and gives no value for a division
by 0 under `REAL`: that it is 0, as the reals of Lean have it, is the model's (DESIGN CHOICE, log entry 22).  No rule
divides by 0 in a constructed instance (R104, R132, R201). -/
noncomputable def Num.real : Num ℝ where
  zero := 0
  one := 1
  two := 2
  four := 4
  ofNat := fun n => (n : ℝ)
  add := fun a b => a + b
  sub := fun a b => a - b
  mul := fun a b => a * b
  div := fun a b => a / b
  cos := Real.cos
  pi := Real.pi
  lit := Decimal.toReal
  gt := fun a b => decide (a > b)
  ge := fun a b => decide (a ≥ b)
  isZero := fun a => decide (a = 0)
  isFinite := fun _ => true

/-- The named property `COS_ACCURATE(eps)` (R9).  A bound on `|COS(x) - cos(x)|` speaks of a finite `COS(x)`. -/
def CosAccurate (eps : ℝ) (cos : F64 → F64) : Prop :=
  ∀ x : F64, F64.isFinite x = true →
    F64.isFinite (cos x) = true ∧ |((F64.toRat (cos x) : ℚ) : ℝ) - Real.cos ((F64.toRat x : ℚ) : ℝ)| ≤ eps

end Sys2Proof.Machine
end

