-- ==== Sys2Proof/Machine/Flags.lean ====
section
/-! DEFINITION. The status port and the packed status and result words (R32, R76, R78): pure functions of the state after a
step.  No command reads them (R32). -/

namespace Sys2Proof.Machine

/-- The 2-bit code of a mode (R30). -/
def modeBits : Mode → BitVec 2
  | .idle => 0#2
  | .acc => 1#2
  | .fault => 2#2

/-- `busy`: 1 if `mode = ACC` (R32). -/
def Block.busy {α : Type} (b : Block α) : Bool := decide (b.mode = .acc)

/-- `fault`: 1 if `mode = FAULT` (R32). -/
def Block.faulted {α : Type} (b : Block α) : Bool := decide (b.mode = .fault)

/-- `fault_code` (R32). -/
def Block.faultCode {α : Type} (b : Block α) : BitVec 3 := b.fcode

/-- `energy[k]` (R32). -/
def Block.energyPort {α : Type} (b : Block α) (k : Fin 8) : α := (b.cells.get k).en

/-- `status = {busy, fault, fault_code[2:0]}` (R78). -/
def Block.status {α : Type} (b : Block α) : BitVec 5 :=
  BitVec.ofBool b.busy ++ (BitVec.ofBool b.faulted ++ b.faultCode)

/-- `res_valid` of the step that led to this state (R33, R76). -/
def State.resValid (s : State) : Bool := s.result.isSome

/-- `res_word = {res_valid, res_detect, res_code[3:0], res_char[7:0]}` of a result event, whose `res_valid` is 1 (R76). -/
def resWord {α : Type} (r : Result α) : BitVec 14 :=
  1#1 ++ (BitVec.ofBool r.detect ++ (r.code ++ r.char))

end Sys2Proof.Machine
end

