-- ==== Sys2Proof/Machine/Run.lean ====
section
/-! DEFINITION. Runs and what a host observes of one (R175). -/

namespace Sys2Proof.Machine

/-- `k` steps: the result events they produce, in order, and the state they end in. -/
def runSteps : Nat → State → List (Result F64) × State
  | 0, s => ([], s)
  | k + 1, s =>
    match step s with
    | .next t => (t.result.toList ++ (runSteps k t).1, (runSteps k t).2)
    | .fault _ => ([], s)
    | .refused _ => ([], s)

/-- How a run ended (R175). -/
inductive RunEnd where
  | complete | insideFrame | faulted
  deriving DecidableEq, Repr

/-- "A run is *complete* if its final `mode` is `IDLE`; it is *faulted* if its final `mode` is `FAULT`" (R175). -/
def runEnd : Mode → RunEnd
  | .idle => .complete
  | .acc => .insideFrame
  | .fault => .faulted

/-- What a host observes of a run: its result events and the final status word (R175). -/
structure Observation where
  results : List (Result F64)
  status : BitVec 5
  ending : RunEnd
  deriving DecidableEq, Repr

/-- A run of an instance: one reset step, then one step per command (R175). -/
def observeRun (s : State) (cmds : List Instr) : Observation :=
  let r := runSteps (cmds.length + 1) { s with port := resetInput :: present cmds }
  { results := r.1, status := r.2.status, ending := runEnd r.2.mode }

end Sys2Proof.Machine
end

