-- ==== Sys2Proof/Safety.lean ====
section
/-! DEFINITION. The invariant of an instance (R27, R30, R31, R108), and the safe end of a run (R175). -/

namespace Sys2Proof.Machine

/-- What holds of an instance after reset and after every step. -/
structure Block.Inv {α : Type} (N : Num α) (b : Block α) : Prop where
  /-- No instance exists with other parameters (R201). -/
  cfg_legal : b.cfg.legal N = true
  /-- "`cell[k].cnt` is the same for all `k`" (R27 (a)). -/
  cnt_shared : ∀ j k : Fin 8, (b.cells.get j).cnt = (b.cells.get k).cnt
  /-- "`cell[k].tp` is the same for all `k`" (R27 (a)). -/
  tp_shared : ∀ j k : Fin 8, (b.cells.get j).tp = (b.cells.get k).tp
  /-- "while `mode = ACC`, `cell[k].cnt = idx`" (R27 (b)). -/
  acc_cnt : b.mode = .acc → ∀ k : Fin 8, (b.cells.get k).cnt = b.idx
  /-- "while `mode = IDLE`, every cell is in the reset state" (R27 (c)). -/
  idle_cells : b.mode = .idle → ∀ k : Fin 8, b.cells.get k = Cell.reset N.zero
  /-- `len` and `idx` are 0 in `IDLE` (R30). -/
  idle_len_idx : b.mode = .idle → b.len = 0 ∧ b.idx = 0
  /-- "in `ACC` ... `0 <= idx < len`" (R30, R31). -/
  acc_idx_lt_len : b.mode = .acc → b.idx < b.len
  /-- `len` fits its `LEN_W` bits (R30, R31). -/
  len_fits : b.len < 2 ^ b.cfg.lenW
  /-- `idx` fits its `LEN_W` bits (R30, R31). -/
  idx_fits : b.idx < 2 ^ b.cfg.lenW
  /-- `cnt` fits its `LEN_W` bits (R26, R108). -/
  cnt_fits : ∀ k : Fin 8, (b.cells.get k).cnt < 2 ^ b.cfg.lenW
  /-- "0 unless `mode = FAULT`" (R30). -/
  fcode_clear : b.mode ≠ .fault → b.fcode = 0#3
  /-- "then the fault code, 1 to 5" (R30, R191). -/
  fcode_valid : b.mode = .fault → ∃ c : FaultCode, b.fcode = faultBits c

/-- The invariant of the machine's state: that of its block, and a result event only after a frame has been completed
(R33, R164). -/
structure State.Inv (s : State) : Prop where
  block : s.toBlock.Inv Num.f64
  result_idle : s.result ≠ none → s.mode = .idle

/-- A run whose results mean what R168 says of them: it "ends in `IDLE` with no fault" (R175,
`92_eei_decisions.md` D30). -/
def Observation.safe (o : Observation) : Bool := decide (o.ending = .complete)

end Sys2Proof.Machine
end

