-- ==== Sys2Proof/Certificates/Slice0/Obligations.lean ====
section
/-! DEFINITION. The statements for the provers, by the files of the spec they come from. -/

open Sys2Proof Sys2Proof.Machine

/-! ## Encodings (`30_encoding.md`) -/

/-- R79's example words, and R75's illegal ones, decode to the commands they stand for (`LEN_W = 32`). -/
def Obligations.ExampleWordsDecode : Prop :=
  decode 32 0x00000000000000000#66 = .nop 0x0000000000000000#64 ∧
  decode 32 0x0DEADBEEF00000001#66 = .nop 0xDEADBEEF00000001#64 ∧
  decode 32 0x10000000000000004#66 = .beginFrame 0x0000000000000004#64 ∧
  decode 32 0x100000000000000CD#66 = .beginFrame 0x00000000000000CD#64 ∧
  decode 32 0x10000000100000000#66 = .beginRsvbits 0x0000000100000000#64 ∧
  decode 32 0x23FF0000000000000#66 = .sample 0x3FF0000000000000#64 ∧
  decode 32 0x2BFF0000000000000#66 = .sample 0xBFF0000000000000#64 ∧
  decode 32 0x28000000000000000#66 = .sample 0x8000000000000000#64 ∧
  decode 32 0x30000000000000000#66 = .rsvd 0x0000000000000000#64

/-- Every well-formed command, at every legal `LEN_W` and with every payload, decodes back from its word (R70 to R74).
-/
def Obligations.DecodeEncodeRoundTrip : Prop :=
  ∀ (lenW : Nat) (i : Instr), i.wellFormed lenW = true → decode lenW (encode i) = i

/-- Every 66-bit word decodes to a well-formed command, whose word it is: no bit of a word is lost (R81). -/
def Obligations.EncodeDecodeIdentity : Prop :=
  ∀ (lenW : Nat) (w : CmdWord), lenWLegal lenW = true →
    (decode lenW w).wellFormed lenW = true ∧ encode (decode lenW w) = w

/-- R81: in the match and mask table of section 3 every word matches some row, and the first one that matches, in the
order given, is the row of the decoded command. -/
def Obligations.FirstMatchingRowIsDecoded : Prop :=
  ∀ w : CmdWord,
    (opcodeRows.find? fun r => r.selects w).map OpcodeRow.mnemonic = some (decode 32 w).mnemonic

/-- R76, R77: the result words of the sixteen symbols and of "no symbol", as `95_test_vectors.md` section 2.1 tabulates
them; `E` are any energies.  Fourteen of the characters are the keypad of log entry 8. -/
def Obligations.ResultWordsOfSymbols : Prop :=
  ∀ E : Bank F64,
    ((List.finRange 16).map fun code =>
      resWord { detect := true, code := BitVec.ofFin code, char := asciiCode (sym code), energy := E }) =
      [0x3031#14, 0x3132#14, 0x3233#14, 0x3341#14, 0x3434#14, 0x3535#14, 0x3636#14, 0x3742#14,
       0x3837#14, 0x3938#14, 0x3A39#14, 0x3B43#14, 0x3C2A#14, 0x3D30#14, 0x3E23#14, 0x3F44#14] ∧
    resWord { detect := false, code := 0#4, char := 0x00#8, energy := E } = 0x2000#14

/-- R32: the status port: `busy`, `fault`, `fault_code` and `energy[k]`; and R78's word made of the first three, which
is 0x00 when idle, 0x10 when accumulating, and 0x08 plus the code when faulted. -/
def Obligations.StatusPortShowsState : Prop :=
  ∀ s : State,
    (s.busy = true ↔ s.mode = .acc) ∧ (s.faulted = true ↔ s.mode = .fault) ∧ s.faultCode = s.fcode ∧
    (∀ k : Fin 8, s.energyPort k = (s.cells.get k).en) ∧
    (s.mode = .idle → s.fcode = 0#3 → s.status = 0x00#5) ∧
    (s.mode = .acc → s.fcode = 0#3 → s.status = 0x10#5) ∧
    (∀ c : FaultCode, s.mode = .fault → s.fcode = faultBits c → s.status = 0x08#5 + (faultBits c).setWidth 5)

/-- R79: `BEGIN N` assembles to `{01, zext_64(N)}`, and "is an assembly error if `N >= 2^LEN_W`". -/
def Obligations.AssembledBeginWord : Prop :=
  ∀ lenW n : Nat, lenWLegal lenW = true →
    (n < 2 ^ lenW → (assembleCommands lenW (.beginN n)).map (List.map encode) =
      some [BitVec.ofNat 66 (2 ^ 64 + n)]) ∧
    (2 ^ lenW ≤ n → assembleCommands lenW (.beginN n) = none)

/-! ## Steps (`43_decoder_commands.md` section 1, `70_reset_and_hazards.md` section 1) -/

/-- R160, R70: a step never stops, it always gives a next state; and with nothing on the port it changes nothing and
emits nothing, "a host with nothing to send presents `NOP`". That the port is a list in the state is the model's (log
entry 2). -/
def Obligations.StepIsTotal : Prop :=
  ∀ s : State, ∃ t : State, step s = .next t ∧ (s.port = [] → t = { s with result := none })

/-- When the input at the head of the port is a command that encodes the well-formed `i`, the step is `exec i`, on the
state from whose port that input has been taken; nothing else is around it.  The port is the model's (log entry 2). -/
def Obligations.StepRunsDecodedCommand : Prop :=
  ∀ (s : State) (i : Instr) (rest : List PortInput),
    i.wellFormed s.cfg.lenW = true → s.port = { rst := false, cmd := encode i } :: rest →
      step s = exec i { s with port := rest }

/-- R220, R34: a step with `rst = 1`, from any state and whatever the command word, leaves the reset state; the
configuration is not touched. -/
def Obligations.ResetStepLeavesResetState : Prop :=
  ∀ (s : State) (cmd : CmdWord) (rest : List PortInput), s.port = { rst := true, cmd := cmd } :: rest →
    ∃ t : State, step s = .next t ∧ t.cfg = s.cfg ∧
      (∀ k : Fin 8, (t.cells.get k).s1 = 0#64 ∧ (t.cells.get k).s2 = 0#64 ∧ (t.cells.get k).tp = 0#64 ∧
        (t.cells.get k).cnt = 0 ∧ (t.cells.get k).en = 0#64) ∧
      t.mode = .idle ∧ t.idx = 0 ∧ t.len = 0 ∧ t.fcode = 0#3 ∧ t.result = none ∧ t.port = rest

/-- R34, R222: `State.reset` holds the reset value of every piece of state, and the defaults of R5, R6 and R10. -/
def Obligations.ResetStateValues : Prop :=
  (∀ k : Fin 8, State.reset.cells.get k = { s1 := 0#64, s2 := 0#64, tp := 0#64, cnt := 0, en := 0#64 }) ∧
  State.reset.mode = .idle ∧ State.reset.idx = 0 ∧ State.reset.len = 0 ∧ State.reset.fcode = 0#3 ∧
  State.reset.result = none ∧
  State.reset.cfg.sampleRate = F64.ofNat 44100 ∧ State.reset.cfg.energyThreshold = F64.ofNat 0 ∧
  State.reset.cfg.lenW = 32

/-- R201, R222: construction yields an instance exactly for a finite sample rate above 0, a finite threshold and a
`LEN_W` from 1 to 64, and the instance is in the reset state. -/
def Obligations.ConstructionChecksParameters : Prop :=
  ∀ cfg : Cfg F64,
    State.construct cfg =
      if F64.isFinite cfg.sampleRate = true ∧ F64.gt cfg.sampleRate 0#64 = true ∧
          F64.isFinite cfg.energyThreshold = true ∧ 1 ≤ cfg.lenW ∧ cfg.lenW ≤ 64
      then some { toBlock := Block.resetState 0#64 cfg, result := none, port := [] }
      else none

/-! ## Commands (`43_decoder_commands.md` section 2, `60_exceptions.md`) -/

/-- R161: `NOP`, `op = 00`, changes nothing and emits nothing, in any mode and with any payload. -/
def Obligations.NopChangesNothing : Prop :=
  ∀ (s : State) (data : Payload),
    exec (.nop data) s = .next { s with result := none } ∧ encode (.nop data) = 0b00#2 ++ data

/-- R162: `BEGIN N` in `IDLE`, `N` expressible and not 0, starts a frame. -/
def Obligations.BeginStartsFrame : Prop :=
  ∀ (s : State) (data : Payload), s.mode = .idle → data.toNat < 2 ^ s.cfg.lenW → data.toNat ≠ 0 →
    exec (.beginFrame data) s = .next
      { s with cells := Bank.gen fun _ => Cell.reset 0#64, len := data.toNat, idx := 0, mode := .acc, result := none }

/-- R162 and R194 (3): both rows of `op = 01` test, in this order, the frame in progress, the reserved bits and `N = 0`;
the fault writes `mode` and `fcode` and nothing else; `busy` is 1 afterwards just when a frame was started. -/
def Obligations.BeginTestsInOrder : Prop :=
  ∀ (s : State) (data : Payload) (i : Instr), (i = .beginFrame data ∨ i = .beginRsvbits data) → s.mode ≠ .fault →
    encode i = 0b01#2 ++ data ∧
    ∃ t : State, exec i s = .next t ∧
      t = (if s.mode = .acc then { s with mode := .fault, fcode := 3#3, result := none }
        else if 2 ^ s.cfg.lenW ≤ data.toNat then { s with mode := .fault, fcode := 1#3, result := none }
        else if data.toNat = 0 then { s with mode := .fault, fcode := 2#3, result := none }
        else { s with
          cells := Bank.gen fun _ => Cell.reset 0#64, len := data.toNat, idx := 0, mode := .acc, result := none }) ∧
      (t.busy = true ↔ s.mode = .idle ∧ data.toNat < 2 ^ s.cfg.lenW ∧ data.toNat ≠ 0)

/-- R162, R75 (b): a `BEGIN` with reserved bits set, in `IDLE`, faults with code 1. -/
def Obligations.BeginRsvbitsFaultsInIdle : Prop :=
  ∀ (s : State) (data : Payload), s.mode = .idle → 2 ^ s.cfg.lenW ≤ data.toNat →
    exec (.beginRsvbits data) s = .next { s with mode := .fault, fcode := 1#3, result := none }

/-- R163: a finite sample that is not the frame's last advances every cell by `FB.SAMPLE(x * WIN(idx, len))` and `idx`
by 1, and emits nothing. -/
def Obligations.SampleAdvancesFrame : Prop :=
  ∀ (s : State) (x : F64), s.mode = .acc → F64.isFinite x = true → s.idx + 1 < s.len →
    exec (.sample x) s = .next
      { s with
        cells := Bank.gen fun k =>
          cellStep Num.f64 (coeff Num.f64 s.cfg k) (F64.mul x (win Num.f64 s.idx s.len)) (s.cells.get k)
        idx := s.idx + 1
        result := none }

/-- R164: the sample that brings the count to `len` emits the result of the energies it leaves, and the state after it
is the reset state of R34 (`fcode`, which it does not write, is 0 before it by R30). -/
def Obligations.LastSampleCompletesFrame : Prop :=
  ∀ (s : State) (x : F64), s.mode = .acc → F64.isFinite x = true → s.idx + 1 = s.len → s.fcode = 0#3 →
    ∀ E : Bank F64,
      (∀ k : Fin 8, E.get k =
        (cellStep Num.f64 (coeff Num.f64 s.cfg k) (F64.mul x (win Num.f64 s.idx s.len)) (s.cells.get k)).en) →
      exec (.sample x) s = .next
        { s with
          toBlock := Block.resetState 0#64 s.cfg
          result := some (match selectSymbol Num.f64 E s.cfg.energyThreshold with
            | some code => { detect := true, code := BitVec.ofFin code, char := asciiCode (sym code), energy := E }
            | none => { detect := false, code := 0#4, char := 0x00#8, energy := E }) }

/-- R163 lines 1 and 2, R194 (4): `SAMPLE` in `IDLE` faults with code 4 whatever its operand, and a NaN or an infinity
in `ACC` with code 5; no cell changes. -/
def Obligations.SampleFaultsInOrder : Prop :=
  ∀ (s : State) (x : F64),
    (s.mode = .idle → exec (.sample x) s = .next { s with mode := .fault, fcode := 4#3, result := none }) ∧
    (s.mode = .acc → F64.isFinite x = false →
      exec (.sample x) s = .next { s with mode := .fault, fcode := 5#3, result := none })

/-- R165: `RSVD`, `op = 11`, raises fault 1, from `IDLE` and from `ACC` alike, whatever its payload; the status word is
then 0x09. -/
def Obligations.RsvdFaults : Prop :=
  ∀ (s : State) (data : Payload), s.mode ≠ .fault →
    exec (.rsvd data) s = .next { s with mode := .fault, fcode := 1#3, result := none } ∧
    encode (.rsvd data) = 0b11#2 ++ data ∧
    ∀ t : State, exec (.rsvd data) s = .next t → t.status = 0x09#5

/-- R166: in `FAULT` every command is ignored. -/
def Obligations.FaultIgnoresCommands : Prop :=
  ∀ (s : State) (i : Instr), s.mode = .fault → exec i s = .next { s with result := none }

/-- R166, R196: the only way out of `FAULT` is `rst`, which leaves the reset state; any other step leaves the whole
block, `fcode` included, as it is and emits nothing. -/
def Obligations.OnlyResetLeavesFault : Prop :=
  ∀ s t : State, s.mode = .fault → step s = .next t →
    (t.mode ≠ .fault ↔ s.nextInput.rst = true) ∧
    (s.nextInput.rst = false → t.toBlock = s.toBlock ∧ t.result = none) ∧
    (s.nextInput.rst = true → t.toBlock = Block.resetState 0#64 s.cfg ∧ t.result = none)

/-- R195: a command that faults writes `mode` and `fcode`, with one of the five codes, and nothing else, and emits no
result. -/
def Obligations.FaultEntryIsPrecise : Prop :=
  ∀ (i : Instr) (s t : State), s.mode ≠ .fault → exec i s = .next t → t.mode = .fault →
    ∃ c : FaultCode, t = { s with mode := .fault, fcode := faultBits c, result := none } ∧
      t.faulted = true ∧ t.faultCode = faultBits c

/-- R167, which the spec derives "from rule R160 to rule R166": the transition relation of `mode`, its fault codes and
its result events. -/
def Obligations.ModeTransitions : Prop :=
  ∀ s t : State, step s = .next t →
    (s.nextInput.rst = true → t.mode = .idle ∧ t.result = none) ∧
    (s.nextInput.rst = false →
      match s.mode, decode s.cfg.lenW s.nextInput.cmd with
      | .idle, .nop _ => t.mode = .idle ∧ t.result = none
      | .idle, .beginFrame data =>
        (data.toNat ≠ 0 → t.mode = .acc ∧ t.result = none) ∧
        (data.toNat = 0 → t.mode = .fault ∧ t.fcode = 2#3 ∧ t.result = none)
      | .idle, .beginRsvbits _ => t.mode = .fault ∧ t.fcode = 1#3 ∧ t.result = none
      | .idle, .sample _ => t.mode = .fault ∧ t.fcode = 4#3 ∧ t.result = none
      | .idle, .rsvd _ => t.mode = .fault ∧ t.fcode = 1#3 ∧ t.result = none
      | .acc, .nop _ => t.mode = .acc ∧ t.result = none
      | .acc, .sample x =>
        (F64.isFinite x = true → s.idx + 1 < s.len → t.mode = .acc ∧ t.result = none) ∧
        (F64.isFinite x = true → s.idx + 1 = s.len → t.mode = .idle ∧ t.result ≠ none) ∧
        (F64.isFinite x = false → t.mode = .fault ∧ t.fcode = 5#3 ∧ t.result = none)
      | .acc, .beginFrame _ => t.mode = .fault ∧ t.fcode = 3#3 ∧ t.result = none
      | .acc, .beginRsvbits _ => t.mode = .fault ∧ t.fcode = 3#3 ∧ t.result = none
      | .acc, .rsvd _ => t.mode = .fault ∧ t.fcode = 1#3 ∧ t.result = none
      | .fault, _ => t.mode = .fault ∧ t.result = none)

/-- R33, R164: a step emits a result event exactly when it accepts the sample that completes a frame. That a frame
whose `idx` is already at or past `len`, in a state no run reaches, completes too is the model's (log entry 18). -/
def Obligations.ResultOnlyAtCompletion : Prop :=
  ∀ s t : State, step s = .next t →
    (t.result ≠ none ↔ s.nextInput.rst = false ∧ s.mode = .acc ∧ s.len ≤ s.idx + 1 ∧
      ∃ x : F64, decode s.cfg.lenW s.nextInput.cmd = .sample x ∧ F64.isFinite x = true)

/-! ## Frames of the commands: what each leaves unchanged -/

/-- `NOP`, `RSVD` and `BEGIN.RSVBITS` leave the cells, `len`, `idx`, the configuration and the port as they were, and
emit nothing; `NOP` leaves `mode` and `fcode` too. -/
def Obligations.FrameOfNopRsvdRsvbits : Prop :=
  ∀ (i : Instr) (s t : State), i.wellFormed s.cfg.lenW = true →
    (match i with
      | .nop _ | .rsvd _ | .beginRsvbits _ => True
      | .beginFrame _ | .sample _ => False) →
    exec i s = .next t →
      t.cfg = s.cfg ∧ t.cells = s.cells ∧ t.len = s.len ∧ t.idx = s.idx ∧ t.port = s.port ∧ t.result = none ∧
      (∀ data, i = .nop data → t.mode = s.mode ∧ t.fcode = s.fcode)

/-- `BEGIN` leaves the configuration and the port as they were and emits nothing; it leaves `fcode` unless it faults,
and the cells, `len` and `idx` unless it starts a frame. -/
def Obligations.FrameOfBegin : Prop :=
  ∀ (data : Payload) (s t : State), exec (.beginFrame data) s = .next t →
    t.cfg = s.cfg ∧ t.port = s.port ∧ t.result = none ∧
    (t.mode ≠ .fault → t.fcode = s.fcode) ∧
    (t.mode ≠ .acc → t.cells = s.cells ∧ t.len = s.len ∧ t.idx = s.idx)

/-- `SAMPLE` leaves the configuration and the port as they were; it leaves `fcode` unless it faults, the cells and `idx`
if it faults, and `len` unless it completes a frame. -/
def Obligations.FrameOfSample : Prop :=
  ∀ (x : F64) (s t : State), exec (.sample x) s = .next t →
    t.cfg = s.cfg ∧ t.port = s.port ∧
    (t.mode ≠ .fault → t.fcode = s.fcode) ∧
    (t.mode = .fault → t.cells = s.cells ∧ t.idx = s.idx ∧ t.result = none) ∧
    (t.mode ≠ .idle → t.len = s.len)

/-- R36: no step, whatever its input, changes the configuration, and so none changes `COEFF`. -/
def Obligations.ConfigurationIsImmutable : Prop :=
  ∀ s t : State, step s = .next t → t.cfg = s.cfg ∧ ∀ k : Fin 8, coeff Num.f64 t.cfg k = coeff Num.f64 s.cfg k

/-! ## The invariant (`10_state.md` rules R27, R30, R31) -/

/-- Every step keeps the invariant of `Safety.lean`, from every state that meets it. -/
def Obligations.StepKeepsInvariant : Prop := ∀ s t : State, s.Inv → step s = .next t → t.Inv

/-- The invariant holds at reset, and of every constructed instance. -/
def Obligations.InvariantAtReset : Prop :=
  State.reset.Inv ∧ ∀ (cfg : Cfg F64) (s : State), State.construct cfg = some s → s.Inv

/-- R170, R34: under the invariant there is one idle state for each configuration, the reset state; so nothing of a
frame remains after it. -/
def Obligations.IdleIsTheResetState : Prop :=
  ∀ s : State, s.Inv → s.mode = .idle → s.toBlock = Block.resetState 0#64 s.cfg

/-! ## Tables (`10_state.md` section 3, `42_tone_interpreter.md`) -/

/-- R24, R23: in every number system the coefficients are R24's formula over the eight frequencies, they depend on the
configuration through the sample rate alone, and `FB.RESET` does not touch them; under `REAL` they lie between -2 and 2
at every sample rate.  What the formula gives at a rate of 0, which no instance has, is the model's (log entry 22). -/
def Obligations.CoefficientTable : Prop :=
  ([0, 1, 2, 3, 4, 5, 6, 7] : List (Fin 8)).map freq = [697, 770, 852, 941, 1209, 1336, 1477, 1633] ∧
  (∀ (α : Type) (N : Num α) (cfg : Cfg α) (k : Fin 8),
    coeff N cfg k =
      N.mul N.two (N.cos (N.div (N.mul (N.mul N.two N.pi) (N.ofNat (freq k))) cfg.sampleRate)) ∧
    (∀ cfg' : Cfg α, cfg'.sampleRate = cfg.sampleRate → coeff N cfg' k = coeff N cfg k) ∧
    ∀ b : Block α, coeff N (b.fbReset N).cfg k = coeff N b.cfg k) ∧
  ∀ (cfg : Cfg ℝ) (k : Fin 8),
    coeff Num.real cfg k = 2 * Real.cos (2 * Real.pi * (freq k : ℝ) / cfg.sampleRate) ∧
    -2 ≤ coeff Num.real cfg k ∧ coeff Num.real cfg k ≤ 2

/-- R144, R148, R25: the symbols of the sixteen pairs, indexed by `4*l + h`; the mapping of pairs to symbols is
injective, and so is that of codes to the characters on the port. Fourteen of the symbols are the keypad of log entry
8. -/
def Obligations.SymbolMapInjective : Prop :=
  ([0, 1, 2, 3, 4, 5, 6, 7, 8, 9, 10, 11, 12, 13, 14, 15] : List (Fin 16)).map sym =
    ['1', '2', '3', 'A', '4', '5', '6', 'B', '7', '8', '9', 'C', '*', '0', '#', 'D'] ∧
  (∀ l h : Fin 4, (symbolCode l h).val = 4 * l.val + h.val) ∧
  (∀ l h l' h' : Fin 4, sym (symbolCode l h) = sym (symbolCode l' h') → l = l' ∧ h = h') ∧
  ∀ c c' : Fin 16, asciiCode (sym c) = asciiCode (sym c') → c = c'

/-! ## Filter Bank (`40_filter_bank.md`) -/

/-- R102, R106: what `FB.SAMPLE` makes of cell `k`, line by line, in every number system. It reads that cell's fields,
its coefficient and the operand alone (R107). -/
def Obligations.CellUpdate : Prop :=
  ∀ (α : Type) (N : Num α) (cfg : Cfg α) (x : α) (cells : Bank (Cell α)) (k : Fin 8) (c y p t t' e : α) (n : Nat)
    (cell : Cell α),
    c = coeff N cfg k → cell = cells.get k →
    y = N.sub (N.add x (N.mul c cell.s1)) cell.s2 →
    p = N.sub (N.add (N.mul cell.s2 cell.s2) (N.mul y y)) (N.mul (N.mul c y) cell.s2) →
    t = N.add cell.tp (N.mul x x) →
    t' = (if N.isZero t = true then N.one else t) →
    n = cell.cnt + 1 →
    e = N.div (N.div p t') (N.ofNat n) →
      (bankStep N cfg x cells).get k = { s1 := y, s2 := cell.s1, tp := t', cnt := n, en := e }

/-- R103, R104: the stored total power is never 0 after a sample, so the division by it is not a division by 0; and it
is never replaced unless the sum is exactly 0. -/
def Obligations.ClampPreventsZeroDivisor : Prop :=
  ∀ (cos : F64 → F64) (x : F64) (cell : Cell F64),
    F64.isZero (cellTotalPower (Num.f64With cos) x cell) = false ∧
    (F64.isZero (F64.add cell.tp (F64.mul x x)) = false →
      cellTotalPower (Num.f64With cos) x cell = F64.add cell.tp (F64.mul x x))

/-- R113: once a cell's `s1` or `s2` is a NaN it stays one, and its energy is then a NaN. -/
def Obligations.NaNStaysInCell : Prop :=
  ∀ (cos : F64 → F64) (c x : F64) (cell : Cell F64),
    (F64.isNaN cell.s1 = true ∨ F64.isNaN cell.s2 = true) →
      (F64.isNaN (cellStep (Num.f64With cos) c x cell).s1 = true) ∧
      F64.isNaN (cellStep (Num.f64With cos) c x cell).en = true

/-- R113: the total power never becomes a NaN, "because it only ever adds squares of windowed samples": from a total
power that is no NaN and not negative, a windowed sample that is no NaN gives one that is no NaN and not negative. -/
def Obligations.TotalPowerNeverNaN : Prop :=
  ∀ (cos : F64 → F64) (x : F64) (cell : Cell F64),
    F64.isNaN x = false → F64.isNaN cell.tp = false → F64.sign cell.tp = false →
      F64.isNaN (cellTotalPower (Num.f64With cos) x cell) = false ∧
      F64.sign (cellTotalPower (Num.f64With cos) x cell) = false

/-- R111 under `F64`: the first sample of a frame gives every cell an energy of exactly 1.0, if its square and its
product with the coefficient are finite and its square is not 0. -/
def Obligations.FirstSampleF64 : Prop :=
  ∀ (cos : F64 → F64) (c x : F64),
    F64.isFinite c = true → F64.isFinite x = true → F64.isFinite (F64.mul c x) = true →
    F64.isFinite (F64.mul x x) = true → F64.isZero (F64.mul x x) = false →
      cellStep (Num.f64With cos) c x (Cell.reset 0#64) =
        { s1 := x, s2 := 0#64, tp := F64.mul x x, cnt := 1, en := 0x3FF0000000000000#64 }

/-- R111 under `REAL`: the first sample of a frame, nonzero or zero. -/
def Obligations.FirstSampleReal : Prop :=
  ∀ c x : ℝ,
    cellStep Num.real c x (Cell.reset 0) =
      if x = 0 then { s1 := 0, s2 := 0, tp := 1, cnt := 1, en := 0 }
      else { s1 := x, s2 := 0, tp := x * x, cnt := 1, en := 1 }

/-- R110: under `REAL` no energy of any frame is negative. -/
def Obligations.RealEnergiesNonnegative : Prop :=
  ∀ (cfg : Cfg ℝ) (xs : List ℝ) (k : Fin 8), 0 ≤ (frameEnergies Num.real cfg xs).get k

/-- R112: under `REAL`, scaling every sample of a frame whose first sample is not 0 leaves every energy as it was. -/
def Obligations.ScalingKeepsEnergies : Prop :=
  ∀ (cfg : Cfg ℝ) (a x : ℝ) (xs : List ℝ), a ≠ 0 → x ≠ 0 →
    frameEnergies Num.real cfg ((x :: xs).map fun y => a * y) = frameEnergies Num.real cfg (x :: xs)

/-- R112: under `REAL`, with a threshold of at most 0, scaling every sample of any frame leaves the selected symbol as
it was. -/
def Obligations.ScalingKeepsSymbol : Prop :=
  ∀ (cfg : Cfg ℝ) (a : ℝ) (xs : List ℝ), a ≠ 0 → cfg.energyThreshold ≤ 0 →
    selectSymbol Num.real (frameEnergies Num.real cfg (xs.map fun y => a * y)) cfg.energyThreshold =
      selectSymbol Num.real (frameEnergies Num.real cfg xs) cfg.energyThreshold

/-- R7, R113: `add`, `sub`, `mul` and `div` of finite operands, `ofNat` and `lit` round the exact value: to the nearest
number, ties to even, if it is less than `2^1024 - 2^970` in magnitude, and to the infinity of its sign otherwise; nothing
saturates (`91_not_in_source.md` N10). -/
def Obligations.ArithmeticRoundsToNearest : Prop :=
  (∀ a b : F64, F64.isFinite a = true → F64.isFinite b = true →
    F64.IsRounded (F64.toRat a + F64.toRat b) (F64.add a b) ∧
    F64.IsRounded (F64.toRat a - F64.toRat b) (F64.sub a b) ∧
    F64.IsRounded (F64.toRat a * F64.toRat b) (F64.mul a b) ∧
    (F64.isZero b = false → F64.IsRounded (F64.toRat a / F64.toRat b) (F64.div a b))) ∧
  (∀ n : Nat, F64.IsRounded n (F64.ofNat n)) ∧
  ∀ (neg : Bool) (mant : Nat) (exp : Int),
    F64.IsRounded ((if neg then -1 else 1) * (mant * (10 : ℚ) ^ exp)) (F64.ofDecimal neg mant exp)

/-- R108, R132: `ofNat` is exact below `2^53`. -/
def Obligations.SmallCountsAreExact : Prop :=
  ∀ n : Nat, n < 2 ^ 53 → F64.isFinite (F64.ofNat n) = true ∧ F64.toRat (F64.ofNat n) = n

/-- R113, R147 and the comparison row of `00_scope.md` section 5: on finite numbers `>` and `>=` are the order of the
values, so that `-0` and `+0` are equal; an infinity lies beyond every finite number of its sign and equals itself; every
comparison with a NaN is false; and `== 0` holds of the finite numbers of value 0 alone, which are both zeros. -/
def Obligations.ComparisonsAreIEEE : Prop :=
  (∀ a b : F64, F64.isFinite a = true → F64.isFinite b = true →
    (F64.gt a b = true ↔ F64.toRat b < F64.toRat a) ∧ (F64.ge a b = true ↔ F64.toRat b ≤ F64.toRat a)) ∧
  (∀ a : F64, F64.isFinite a = true →
    F64.gt (F64.inf false) a = true ∧ F64.ge (F64.inf false) a = true ∧
    F64.gt a (F64.inf false) = false ∧ F64.ge a (F64.inf false) = false ∧
    F64.gt a (F64.inf true) = true ∧ F64.ge a (F64.inf true) = true ∧
    F64.gt (F64.inf true) a = false ∧ F64.ge (F64.inf true) a = false) ∧
  (F64.gt (F64.inf false) (F64.inf true) = true ∧ F64.ge (F64.inf false) (F64.inf true) = true ∧
    F64.gt (F64.inf true) (F64.inf false) = false ∧ F64.ge (F64.inf true) (F64.inf false) = false ∧
    ∀ s : Bool, F64.gt (F64.inf s) (F64.inf s) = false ∧ F64.ge (F64.inf s) (F64.inf s) = true) ∧
  (∀ a b : F64, F64.isNaN a = true ∨ F64.isNaN b = true → F64.gt a b = false ∧ F64.ge a b = false) ∧
  ∀ a : F64, F64.isZero a = true ↔ F64.isFinite a = true ∧ F64.toRat a = 0

/-! ## Window Function (`41_window.md`) -/

/-- R130, R131, R134: the literals and the two doublings of `PI`, the weight `WIN(i, N)` and the windowed sample under
`NUM = F64`, operation by operation; `c1` and `c2` are the two cosines, and the constants those of the first clause. -/
def Obligations.WindowFormulaF64 : Prop :=
  (Num.f64.lit windowA0 = 0x3FDB4D44567125DD#64 ∧ Num.f64.lit windowA1 = 0x3FDFC7A7C9DE0503#64 ∧
    Num.f64.lit windowA2 = 0x3FB3AC6045BAF534#64 ∧
    Num.f64.mul Num.f64.two Num.f64.pi = 0x401921FB54442D18#64 ∧
    Num.f64.mul Num.f64.four Num.f64.pi = 0x402921FB54442D18#64) ∧
  ∀ (cos : F64 → F64) (x c1 c2 : F64) (i n : Nat),
    c1 = cos (F64.div (F64.mul 0x401921FB54442D18#64 (F64.ofNat i)) (F64.ofNat n)) →
    c2 = cos (F64.div (F64.mul 0x402921FB54442D18#64 (F64.ofNat i)) (F64.ofNat n)) →
      windowed (Num.f64With cos) x i n =
        F64.mul x (F64.add (F64.sub 0x3FDB4D44567125DD#64 (F64.mul 0x3FDFC7A7C9DE0503#64 c1))
          (F64.mul 0x3FB3AC6045BAF534#64 c2))

/-- R133's table, row `i = 0`: with a cosine of the named property `COS_ZERO`, the weight of the first sample is the
same binary64 number for every frame length. -/
def Obligations.FirstWindowWeightF64 : Prop :=
  ∀ (cos : F64 → F64) (n : Nat), CosZero cos → 0 < n → win (Num.f64With cos) 0 n = 0x3F7C2D27807789C0#64

/-- R133 (a), (b), (f): the first weight and the peak of the window under `REAL`. -/
def Obligations.RealWindowValues : Prop :=
  ∀ n : Nat, 0 < n → win Num.real 0 n = 0.006879 ∧ win Num.real n (2 * n) = 1.000001

/-- R133 (c), (d): under `REAL` the window is symmetric, and its weights lie between 0.006879 and 1.000001. -/
def Obligations.RealWindowSymmetryAndBounds : Prop :=
  ∀ i n : Nat, i < n →
    (0 < i → win Num.real i n = win Num.real (n - i) n) ∧
    0.006879 ≤ win Num.real i n ∧ win Num.real i n ≤ 1.000001

/-! ## Tone Interpreter (`42_tone_interpreter.md`) -/

/-- R145 and R147, which the spec derives "from rule R141", under `F64` and under `REAL`: `GROUPSEL` selects `j`
exactly when `j` is the first position of greatest energy among the positions whose energy is above 0 and at least the
threshold (a NaN energy is no such position), and selects none exactly when there is no such position.  What `F64.gt` and `F64.ge` are,
`ComparisonsAreIEEE` says. -/
def Obligations.GroupSelClosedForm : Prop :=
  (∀ (cos : F64 → F64) (E : Bank F64) (g : Group) (thr : F64) (Q : Fin 4 → Prop),
    (∀ j, Q j ↔ F64.gt (E.get (g.cell j)) 0#64 = true ∧ F64.ge (E.get (g.cell j)) thr = true) →
      (groupSel (Num.f64With cos) E g thr = none ↔ ∀ j, ¬ Q j) ∧
      ∀ j, groupSel (Num.f64With cos) E g thr = some j ↔
        Q j ∧ ∀ i, Q i → F64.ge (E.get (g.cell j)) (E.get (g.cell i)) = true ∧
          (i < j → F64.gt (E.get (g.cell j)) (E.get (g.cell i)) = true)) ∧
  ∀ (E : Bank ℝ) (g : Group) (thr : ℝ) (Q : Fin 4 → Prop),
    (∀ j, Q j ↔ 0 < E.get (g.cell j) ∧ thr ≤ E.get (g.cell j)) →
      (groupSel Num.real E g thr = none ↔ ∀ j, ¬ Q j) ∧
      ∀ j, groupSel Num.real E g thr = some j ↔
        Q j ∧ ∀ i, Q i → E.get (g.cell i) ≤ E.get (g.cell j) ∧ (i < j → E.get (g.cell i) < E.get (g.cell j))

/-- R146, "derived: from rule R145": raising the threshold leaves the symbol as it was or removes it, under `F64` and
under `REAL`. -/
def Obligations.RaisingThresholdIsConservative : Prop :=
  (∀ (cos : F64 → F64) (E : Bank F64) (thr1 thr2 : F64), F64.ge thr2 thr1 = true →
    selectSymbol (Num.f64With cos) E thr2 = selectSymbol (Num.f64With cos) E thr1 ∨
    selectSymbol (Num.f64With cos) E thr2 = none) ∧
  (∀ (E : Bank ℝ) (thr1 thr2 : ℝ), thr1 ≤ thr2 →
    selectSymbol Num.real E thr2 = selectSymbol Num.real E thr1 ∨ selectSymbol Num.real E thr2 = none)

/-- R142: a symbol is found exactly when both groups have a selected position, and its code is `4*l + h`; in any number
system. -/
def Obligations.SelectSymbolNeedsBothGroups : Prop :=
  ∀ (α : Type) (N : Num α) (E : Bank α) (thr : α) (code : Fin 16),
    selectSymbol N E thr = some code ↔
      ∃ l h : Fin 4, groupSel N E .low thr = some l ∧ groupSel N E .high thr = some h ∧
        code.val = 4 * l.val + h.val

/-- R232: with a threshold of at most 0, one positive energy in each group is enough for a symbol. -/
def Obligations.NonpositiveThresholdAlwaysDetects : Prop :=
  ∀ (cos : F64 → F64) (E : Bank F64) (thr : F64) (l h : Fin 4), F64.ge 0#64 thr = true →
    F64.gt (E.get (Group.low.cell l)) 0#64 = true → F64.gt (E.get (Group.high.cell h)) 0#64 = true →
      (resultOf (Num.f64With cos) E thr).detect = true

/-! ## Whole frames and runs (`43_decoder_commands.md` sections 6 and 7) -/

/-- R168, "derived: from rule R162, rule R163, rule R164": the commands of `FRAME xs`, with any `NOP`s before, between
and after them, applied to an idle instance that meets the invariant, produce one result event, that of
`processBuffer`, and leave the instance as they found it. -/
def Obligations.FrameIsProcessBuffer : Prop :=
  ∀ (s : State) (xs : List F64) (cmds : List Instr) (rest : List PortInput),
    s.Inv → s.mode = .idle → (∀ x ∈ xs, F64.isFinite x = true) →
    frameCommands s.cfg.lenW xs = some (nonNops cmds) → s.port = present cmds ++ rest →
      ∃ t : State, runSteps cmds.length s = ([processBuffer Num.f64 s.cfg xs], t) ∧
        t.toBlock = s.toBlock ∧ t.port = rest

/-- R169 under `F64`: an all-zero frame, of zeros of either sign, gives eight energies of exactly 0 and "no symbol",
under any threshold, if the coefficients and the window's weights are finite. -/
def Obligations.AllZeroFrameF64 : Prop :=
  ∀ (cos : F64 → F64) (cfg : Cfg F64) (xs : List F64),
    (∀ k, F64.isFinite (coeff (Num.f64With cos) cfg k) = true) →
    (∀ i, i < xs.length → F64.isFinite (win (Num.f64With cos) i xs.length) = true) →
    xs ≠ [] → (∀ x ∈ xs, F64.isZero x = true) →
      (∀ k, (frameEnergies (Num.f64With cos) cfg xs).get k = 0#64) ∧
      (processBuffer (Num.f64With cos) cfg xs).detect = false ∧
      resWord (processBuffer (Num.f64With cos) cfg xs) = 0x2000#14

/-- R169 for any number system with the laws `NUM_ZERO_LAWS`, as log entry 11 completes them, and `REAL` has
them. -/
def Obligations.AllZeroFrameAnyNum : Prop :=
  (∀ (α : Type) (N : Num α) (cfg : Cfg α) (xs : List α), NumZeroLaws N → xs ≠ [] → (∀ x ∈ xs, N.isZero x = true) →
    (∀ k, N.isZero ((frameEnergies N cfg xs).get k) = true) ∧ (processBuffer N cfg xs).detect = false) ∧
  NumZeroLaws Num.real

/-- R172: for one buffer and one sample rate, raising the threshold leaves the energies as they were, and the result as
it was or "no symbol". -/
def Obligations.ThresholdMonotoneOverFrames : Prop :=
  ∀ (cos : F64 → F64) (cfg : Cfg F64) (thr2 : F64) (xs : List F64), F64.ge thr2 cfg.energyThreshold = true →
    (processBuffer (Num.f64With cos) { cfg with energyThreshold := thr2 } xs).energy =
      (processBuffer (Num.f64With cos) cfg xs).energy ∧
    (processBuffer (Num.f64With cos) { cfg with energyThreshold := thr2 } xs =
        processBuffer (Num.f64With cos) cfg xs ∨
      (processBuffer (Num.f64With cos) { cfg with energyThreshold := thr2 } xs).detect = false)

/-- R224: a frame the host does not finish leaves the instance in `ACC`, busy and without a result, for ever: any
number of steps with nothing on the port change nothing. -/
def Obligations.UnfinishedFrameWaits : Prop :=
  ∀ (k : Nat) (s : State), s.mode = .acc → s.port = [] → s.result = none →
    runSteps k s = ([], s) ∧ s.busy = true

/-- R170, R171, R175: what a host observes of a run, which begins with a reset step, depends on the instance's
configuration and the commands alone, not on anything the instance did before. -/
def Obligations.RunForgetsThePast : Prop :=
  ∀ (s s' : State) (cmds : List Instr), s.cfg = s'.cfg → observeRun s cmds = observeRun s' cmds
end

