-- ==== Sys2Proof/Laws/Decode.lean ====
section
/-! SUPPORT. The fields of a command word, and the bits of a `BEGIN` payload. -/

namespace Sys2Proof

/-- The bits of a command word: `data` below bit 64, `op` from there. -/
theorem commandWord_getLsbD (op : BitVec 2) (data : Payload) (i : Nat) :
    (commandWord op data).getLsbD i = if i < 64 then data.getLsbD i else op.getLsbD (i - 64) := by
  rw [commandWord, BitVec.getLsbD_append]

@[simp] theorem opField_commandWord (op : BitVec 2) (data : Payload) : opField (commandWord op data) = op := by
  apply BitVec.eq_of_getLsbD_eq
  intro i hi
  simp [opField, commandWord_getLsbD, hi]

@[simp] theorem dataField_commandWord (op : BitVec 2) (data : Payload) : dataField (commandWord op data) = data := by
  apply BitVec.eq_of_getLsbD_eq
  intro i hi
  simp [dataField, commandWord_getLsbD, hi]

/-- A command word is its two fields. -/
theorem commandWord_fields (w : CmdWord) : commandWord (opField w) (dataField w) = w := by
  apply BitVec.eq_of_getLsbD_eq
  intro i hi
  rw [commandWord_getLsbD, opField, dataField, BitVec.getLsbD_extractLsb', BitVec.getLsbD_extractLsb']
  split
  · simp_all
  · simp_all; omega

theorem commandWord_and (a b : BitVec 2) (d e : Payload) :
    commandWord a d &&& commandWord b e = commandWord (a &&& b) (d &&& e) := by
  apply BitVec.eq_of_getLsbD_eq
  intro i _
  simp only [BitVec.getLsbD_and, commandWord_getLsbD]
  split <;> rfl

@[simp] theorem commandWord_inj (a b : BitVec 2) (d e : Payload) :
    commandWord a d = commandWord b e ↔ a = b ∧ d = e :=
  ⟨fun h => ⟨by simpa using congrArg opField h, by simpa using congrArg dataField h⟩, fun h => by rw [h.1, h.2]⟩

/-- No reserved bit is set exactly when the payload is below `2^LEN_W` (R73). -/
theorem reservedBits_eq_zero_iff (lenW : Nat) (data : Payload) :
    reservedBits lenW data = 0#64 ↔ data.toNat < 2 ^ lenW := by
  rw [reservedBits, ← BitVec.toNat_inj]
  simp [Nat.shiftRight_eq_div_pow, Nat.div_eq_zero_iff]

/-- At `LEN_W = 32` the reserved bits are the upper half of the payload (R73). -/
theorem and_upper_half_eq_zero_iff (data : Payload) :
    data &&& 0xFFFFFFFF00000000#64 = 0#64 ↔ data.toNat < 2 ^ 32 := by
  rw [← reservedBits_eq_zero_iff]
  constructor
  · intro h
    apply BitVec.eq_of_getLsbD_eq
    intro i hi
    rw [reservedBits, BitVec.getLsbD_ushiftRight, BitVec.getLsbD_zero]
    by_cases hi32 : i < 32
    · have hm : ∀ i < 32, BitVec.getLsbD 0xFFFFFFFF00000000#64 (32 + i) = true := by decide
      have := congrArg (BitVec.getLsbD · (32 + i)) h
      simpa [hm i hi32] using this
    · exact BitVec.getLsbD_of_ge _ _ (by omega)
  · intro h
    apply BitVec.eq_of_getLsbD_eq
    intro i hi
    rw [BitVec.getLsbD_and, BitVec.getLsbD_zero]
    by_cases hi32 : i < 32
    · have hm : ∀ i < 32, BitVec.getLsbD 0xFFFFFFFF00000000#64 i = false := by decide
      simp [hm i hi32]
    · have := congrArg (BitVec.getLsbD · (i - 32)) h
      simp only [reservedBits, BitVec.getLsbD_ushiftRight, BitVec.getLsbD_zero] at this
      rw [show 32 + (i - 32) = i by omega] at this
      simp [this]

/-- A word selects a row of the opcode table by its two fields. -/
theorem row_selects_iff (name : String) (op m : BitVec 2) (d e : Payload) (w : CmdWord) :
    OpcodeRow.selects ⟨name, commandWord op d, commandWord m e⟩ w = true ↔
      opField w &&& m = op ∧ dataField w &&& e = d := by
  rw [OpcodeRow.selects, beq_iff_eq]
  conv_lhs => rw [← commandWord_fields w]
  rw [commandWord_and, commandWord_inj]

/-- The rows of the opcode table, by the fields of their match and mask. -/
theorem opcodeRows_eq :
    opcodeRows =
      [ ⟨"NOP", commandWord 0b00#2 0#64, commandWord 0b11#2 0#64⟩,
        ⟨"BEGIN", commandWord 0b01#2 0#64, commandWord 0b11#2 0xFFFFFFFF00000000#64⟩,
        ⟨"BEGIN.RSVBITS", commandWord 0b01#2 0#64, commandWord 0b11#2 0#64⟩,
        ⟨"SAMPLE", commandWord 0b10#2 0#64, commandWord 0b11#2 0#64⟩,
        ⟨"RSVD", commandWord 0b11#2 0#64, commandWord 0b11#2 0#64⟩ ] := by decide

/-- The four `op` values of the four rows are all there are (R71, R81). -/
theorem op_cases (op : BitVec 2) : op = 0b00#2 ∨ op = 0b01#2 ∨ op = 0b10#2 ∨ op = 0b11#2 := by
  revert op; decide

end Sys2Proof
end

