-- ==== Sys2Proof/Laws/F64.lean ====
section
/-! SUPPORT. What the binary64 operations can do: sign and magnitude, NaN propagation, zeros, exact results, all that
`round` can do, and the order of finite numbers. -/

namespace Sys2Proof

/-! ## Sign and magnitude -/

theorem F64.mag_lt (a : F64) : F64.mag a < 2 ^ 63 := Nat.mod_lt _ (by decide)

theorem F64.toNat_ofMag (s : Bool) (m : Nat) (h : m < 2 ^ 63) :
    (F64.ofMag s m).toNat = (if s then 2 ^ 63 else 0) + m := by
  rw [F64.ofMag, BitVec.toNat_ofNat]
  apply Nat.mod_eq_of_lt
  split <;> omega

theorem F64.sign_ofMag (s : Bool) (m : Nat) (h : m < 2 ^ 63) : F64.sign (F64.ofMag s m) = s := by
  rw [F64.sign, F64.toNat_ofMag s m h]
  cases s
  · simpa using h
  · simp

theorem F64.mag_ofMag (s : Bool) (m : Nat) (h : m < 2 ^ 63) : F64.mag (F64.ofMag s m) = m := by
  rw [F64.mag, F64.toNat_ofMag s m h]
  cases s
  · simpa using h
  · simp; omega

theorem F64.ofMag_sign_mag (a : F64) : F64.ofMag (F64.sign a) (F64.mag a) = a := by
  apply BitVec.eq_of_toNat_eq
  rw [F64.toNat_ofMag _ _ (F64.mag_lt a), F64.sign, F64.mag]
  have := a.isLt
  by_cases h : 2 ^ 63 ≤ a.toNat
  · rw [if_pos (decide_eq_true h)]; omega
  · rw [if_neg (by simpa using h)]; omega

theorem F64.ext_sign_mag {a b : F64} (hs : F64.sign a = F64.sign b) (hm : F64.mag a = F64.mag b) : a = b := by
  rw [← F64.ofMag_sign_mag a, ← F64.ofMag_sign_mag b, hs, hm]

@[simp] theorem F64.sign_neg (a : F64) : F64.sign (F64.neg a) = !F64.sign a := F64.sign_ofMag _ _ (F64.mag_lt a)

@[simp] theorem F64.mag_neg (a : F64) : F64.mag (F64.neg a) = F64.mag a := F64.mag_ofMag _ _ (F64.mag_lt a)

@[simp] theorem F64.sign_zero : F64.sign 0#64 = false := rfl

@[simp] theorem F64.mag_zero : F64.mag 0#64 = 0 := rfl

/-! ## Classes -/

theorem F64.isFinite_iff (a : F64) : F64.isFinite a = true ↔ F64.isNaN a = false ∧ F64.isInf a = false := by
  simp only [F64.isFinite, F64.isNaN, F64.isInf, decide_eq_true_eq, decide_eq_false_iff_not]; omega

theorem F64.isFinite_of_isZero {a : F64} (h : F64.isZero a = true) : F64.isFinite a = true := by
  have h0 : F64.mag a = 0 := of_decide_eq_true h
  exact decide_eq_true (h0 ▸ by decide)

/-- A magnitude above the infinity's is a NaN's. -/
theorem F64.isNaN_ofMag (s : Bool) (f : Nat) (h0 : 0 < f) (h1 : f < 2 ^ 52) :
    F64.isNaN (F64.ofMag s (F64.infMag + f)) = true := by
  apply decide_eq_true
  rw [F64.mag_ofMag _ _ (by unfold F64.infMag; omega)]
  omega

/-- A NaN is a NaN, whatever is drawn for its sign and fraction. -/
@[simp] theorem F64.isNaN_nan (src : NanSource) (a b : F64) : F64.isNaN (F64.nan src a b) = true := by
  have hf := (Config.nanBits src a b).2.isLt
  apply F64.isNaN_ofMag <;> split <;> omega

theorem F64.add_isNaN_of {a b : F64} (h : F64.isNaN a = true ∨ F64.isNaN b = true) :
    F64.isNaN (F64.add a b) = true := by
  rcases h with h | h <;> simp [F64.add, h]

theorem F64.sub_isNaN_of {a b : F64} (h : F64.isNaN a = true ∨ F64.isNaN b = true) :
    F64.isNaN (F64.sub a b) = true := by
  rcases h with h | h <;> simp [F64.sub, h]

theorem F64.mul_isNaN_of {a b : F64} (h : F64.isNaN a = true ∨ F64.isNaN b = true) :
    F64.isNaN (F64.mul a b) = true := by
  rcases h with h | h <;> simp [F64.mul, h]

theorem F64.div_isNaN_of {a b : F64} (h : F64.isNaN a = true ∨ F64.isNaN b = true) :
    F64.isNaN (F64.div a b) = true := by
  rcases h with h | h <;> simp [F64.div, h]

/-! ## Rounding -/

/-- The magnitude `round` gives: never above the infinity's. -/
theorem F64.round_mag_le (s : Bool) (n d : Nat) : F64.mag (F64.round s n d) ≤ F64.infMag := by
  rw [F64.round, F64.mag_ofMag _ _ (lt_of_le_of_lt (Nat.min_le_right _ _) (by decide))]
  exact Nat.min_le_right _ _

@[simp] theorem F64.sign_round (s : Bool) (n d : Nat) : F64.sign (F64.round s n d) = s :=
  F64.sign_ofMag _ _ (lt_of_le_of_lt (Nat.min_le_right _ _) (by decide))

theorem F64.mag_round (s : Bool) (n d : Nat) :
    F64.mag (F64.round s n d) =
      min ((Nat.log2 (n / d) - 52) * 2 ^ 52 + F64.nearestEven n (d <<< (Nat.log2 (n / d) - 52))) F64.infMag :=
  F64.mag_ofMag _ _ (lt_of_le_of_lt (Nat.min_le_right _ _) (by decide))

@[simp] theorem F64.isNaN_round (s : Bool) (n d : Nat) : F64.isNaN (F64.round s n d) = false := by
  simpa [F64.isNaN] using F64.round_mag_le s n d

theorem F64.nearestEven_exact (q d : Nat) (h : 0 < d) : F64.nearestEven (q * d) d = q := by
  simp [F64.nearestEven, h]; omega

/-- The units of a magnitude, split at the subnormals. -/
theorem F64.units_eq (a : F64) :
    F64.units a = if F64.mag a < 2 ^ 52 then F64.mag a
      else (2 ^ 52 + F64.mag a % 2 ^ 52) * 2 ^ (F64.mag a / 2 ^ 52 - 1) := by
  simp only [F64.units, Nat.shiftLeft_eq]
  by_cases h : F64.mag a < 2 ^ 52
  · rw [if_pos h, Nat.div_eq_of_lt h, Nat.mod_eq_of_lt h, if_pos rfl]
  · rw [if_neg h, if_neg (by omega)]

@[simp] theorem F64.units_zero : F64.units 0#64 = 0 := rfl

theorem F64.units_eq_zero_iff (a : F64) : F64.units a = 0 ↔ F64.mag a = 0 := by
  rw [F64.units_eq]
  split
  · rfl
  · simp; omega

theorem F64.units_of_isZero {a : F64} (h : F64.isZero a = true) : F64.units a = 0 := by
  rw [F64.units_eq_zero_iff]; simpa [F64.isZero] using h

/-- Rounding an exact count of units gives it back. -/
theorem F64.round_units (s : Bool) (a : F64) (d : Nat) (hd : 0 < d) (ha : F64.isFinite a = true) :
    F64.round s (F64.units a * d) d = F64.ofMag s (F64.mag a) := by
  have hfin : F64.mag a < F64.infMag := by simpa [F64.isFinite] using ha
  have key : (Nat.log2 (F64.units a) - 52) * 2 ^ 52 +
      F64.nearestEven (F64.units a * d) (d <<< (Nat.log2 (F64.units a) - 52)) = F64.mag a := by
    rw [F64.units_eq]
    split
    · next h =>
      have hk : Nat.log2 (F64.mag a) - 52 = 0 := by
        by_cases h0 : F64.mag a = 0
        · simp [h0]
        · have := (Nat.log2_lt h0).2 h; omega
      rw [hk]; simp [F64.nearestEven_exact _ _ hd]
    · next h =>
      set f := F64.mag a % 2 ^ 52
      set e := F64.mag a / 2 ^ 52 with he
      have hf : f < 2 ^ 52 := Nat.mod_lt _ (by decide)
      have he1 : 1 ≤ e := by omega
      have hlog : Nat.log2 ((2 ^ 52 + f) * 2 ^ (e - 1)) = 52 + (e - 1) := by
        apply (Nat.log2_eq_iff (by positivity)).2
        constructor
        · rw [pow_add]; exact Nat.mul_le_mul_right _ (Nat.le_add_right _ _)
        · rw [show 52 + (e - 1) + 1 = 53 + (e - 1) by omega, pow_add]
          exact Nat.mul_lt_mul_of_pos_right (by omega) (by positivity)
      rw [hlog, Nat.add_sub_cancel_left, Nat.shiftLeft_eq,
        show (2 ^ 52 + f) * 2 ^ (e - 1) * d = (2 ^ 52 + f) * (d * 2 ^ (e - 1)) by ring,
        F64.nearestEven_exact _ _ (by positivity)]
      have : F64.mag a = e * 2 ^ 52 + f := by
        rw [he, Nat.mul_comm]; exact (Nat.div_add_mod _ _).symm
      rw [this]
      omega
  rw [F64.round, Nat.mul_div_cancel _ hd]
  simp only [key]
  rw [Nat.min_eq_left hfin.le]

theorem F64.round_zero (s : Bool) (d : Nat) : F64.round s 0 d = F64.ofMag s 0 := by
  simp [F64.round, F64.nearestEven, Nat.log2_zero]

/-! ## Zeros, and exact results -/

theorem F64.isNaN_of_isFinite {a : F64} (h : F64.isFinite a = true) : F64.isNaN a = false :=
  ((F64.isFinite_iff a).1 h).1

theorem F64.isInf_of_isFinite {a : F64} (h : F64.isFinite a = true) : F64.isInf a = false :=
  ((F64.isFinite_iff a).1 h).2

theorem F64.isZero_iff (a : F64) : F64.isZero a = true ↔ F64.mag a = 0 := decide_eq_true_iff

@[simp] theorem F64.isZero_ofMag_zero (s : Bool) : F64.isZero (F64.ofMag s 0) = true := by cases s <;> decide

@[simp] theorem F64.sign_ofMag_zero (s : Bool) : F64.sign (F64.ofMag s 0) = s := by cases s <;> decide

/-- A zero is one of the two zeros. -/
theorem F64.eq_ofMag_of_isZero {a : F64} (h : F64.isZero a = true) : a = F64.ofMag (F64.sign a) 0 := by
  conv_lhs => rw [← F64.ofMag_sign_mag a, (F64.isZero_iff a).1 h]

theorem F64.signedUnits_of_isZero {a : F64} (h : F64.isZero a = true) : F64.signedUnits a = 0 := by
  simp [F64.signedUnits, F64.units_of_isZero h]

theorem F64.signedUnits_eq_zero_iff (a : F64) : F64.signedUnits a = 0 ↔ F64.isZero a = true := by
  rw [F64.isZero_iff, ← F64.units_eq_zero_iff, F64.signedUnits]
  split <;> omega

/-- A sum with a zero is exact. -/
theorem F64.addCore_isZero_right (src : NanSource) {a b : F64} (ha : F64.isFinite a = true)
    (h0 : F64.isZero a = false) (hb : F64.isZero b = true) : F64.addCore src a b = a := by
  have hne : F64.signedUnits a ≠ 0 := fun h => by simp [(F64.signedUnits_eq_zero_iff a).1 h] at h0
  have hs : decide (F64.signedUnits a < 0) = F64.sign a := by
    unfold F64.signedUnits at hne ⊢
    split at hne
    · next h => rw [if_pos h, h]; exact decide_eq_true (by omega)
    · next h => rw [if_neg h, Bool.eq_false_iff.2 h]; exact decide_eq_false (by omega)
  have hn : (F64.signedUnits a).natAbs = F64.units a := by
    simp only [F64.signedUnits]; split <;> simp
  simp only [F64.addCore, F64.isInf_of_isFinite ha, F64.isInf_of_isFinite (F64.isFinite_of_isZero hb),
    F64.signedUnits_of_isZero hb, Int.add_zero, hne, hs, hn, if_false, Bool.false_eq_true]
  have := F64.round_units (F64.sign a) a 1 (by decide) ha
  rw [Nat.mul_one] at this
  rw [this, F64.ofMag_sign_mag]

/-- A sum with a zero is exact. -/
theorem F64.addCore_isZero_left (src : NanSource) {a b : F64} (hb : F64.isFinite b = true)
    (h0 : F64.isZero b = false) (ha : F64.isZero a = true) : F64.addCore src a b = b := by
  have h := F64.addCore_isZero_right src hb h0 ha
  simp only [F64.addCore, F64.isInf_of_isFinite hb, F64.isInf_of_isFinite (F64.isFinite_of_isZero ha), if_false,
    Bool.false_eq_true] at h ⊢
  rwa [Int.add_comm, Bool.and_comm]

/-- The sum of two zeros is `-0` only if both are. -/
theorem F64.addCore_zeros (src : NanSource) {a b : F64} (ha : F64.isZero a = true) (hb : F64.isZero b = true) :
    F64.addCore src a b = F64.ofMag (F64.sign a && F64.sign b) 0 := by
  simp [F64.addCore, F64.isInf_of_isFinite (F64.isFinite_of_isZero ha),
    F64.isInf_of_isFinite (F64.isFinite_of_isZero hb), F64.signedUnits_of_isZero ha, F64.signedUnits_of_isZero hb]

theorem F64.add_of_not_isNaN {a b : F64} (ha : F64.isNaN a = false) (hb : F64.isNaN b = false) :
    F64.add a b = F64.addCore .add a b := by simp [F64.add, ha, hb]

theorem F64.sub_of_not_isNaN {a b : F64} (ha : F64.isNaN a = false) (hb : F64.isNaN b = false) :
    F64.sub a b = F64.addCore .sub a (F64.neg b) := by simp [F64.sub, ha, hb]

theorem F64.isZero_neg {a : F64} (h : F64.isZero a = true) : F64.isZero (F64.neg a) = true := by
  rw [F64.isZero_iff] at *; rw [F64.mag_neg, h]

theorem F64.isFinite_neg (a : F64) : F64.isFinite (F64.neg a) = F64.isFinite a := by
  rw [F64.isFinite, F64.isFinite, F64.mag_neg]

/-- A finite number times a zero is a zero. -/
theorem F64.mul_isZero {a b : F64} (ha : F64.isFinite a = true) (hb : F64.isFinite b = true)
    (h : F64.isZero a = true ∨ F64.isZero b = true) :
    F64.mul a b = F64.ofMag (F64.sign a != F64.sign b) 0 := by
  have h0 : F64.units a * F64.units b = 0 := by
    rcases h with h | h <;> simp [F64.units_of_isZero h]
  simp only [F64.mul, F64.isNaN_of_isFinite ha, F64.isNaN_of_isFinite hb, F64.isInf_of_isFinite ha,
    F64.isInf_of_isFinite hb, Bool.or_self, Bool.false_eq_true, if_false, h0, F64.round_zero]

/-- A zero divided by a number other than a zero or a NaN is a zero. -/
theorem F64.div_isZero {a b : F64} (ha : F64.isZero a = true) (hb : F64.isNaN b = false)
    (h0 : F64.isZero b = false) : F64.div a b = F64.ofMag (F64.sign a != F64.sign b) 0 := by
  have hf := F64.isFinite_of_isZero ha
  simp only [F64.div, F64.isNaN_of_isFinite hf, hb, F64.isInf_of_isFinite hf, h0, F64.units_of_isZero ha,
    Bool.or_self, Bool.false_eq_true, if_false, Nat.zero_mul, F64.round_zero, ite_self]

theorem F64.scale_pos : 0 < F64.scale := by
  unfold F64.scale; positivity

/-- 1 is `scale` units. -/
theorem F64.units_one : F64.units 0x3FF0000000000000#64 = F64.scale := by decide +kernel

/-- A number divided by itself is 1. -/
theorem F64.div_self {a : F64} (ha : F64.isFinite a = true) (h0 : F64.isZero a = false) :
    F64.div a a = 0x3FF0000000000000#64 := by
  have hu : 0 < F64.units a := Nat.pos_of_ne_zero fun h => by
    rw [F64.units_eq_zero_iff] at h; simp [F64.isZero, h] at h0
  have h1 : F64.round false (F64.units 0x3FF0000000000000#64 * F64.units a) (F64.units a) = 0x3FF0000000000000#64 :=
    (F64.round_units false 0x3FF0000000000000#64 _ hu (by decide)).trans (by decide)
  have h2 : F64.units a * F64.scale = F64.units 0x3FF0000000000000#64 * F64.units a := by
    rw [F64.units_one, Nat.mul_comm]
  simp only [F64.div, F64.isNaN_of_isFinite ha, F64.isInf_of_isFinite ha, h0, bne_self_eq_false, Bool.or_self,
    Bool.false_eq_true, if_false, h2, h1]

@[simp] theorem F64.isNaN_ofNat (n : Nat) : F64.isNaN (F64.ofNat n) = false := F64.isNaN_round _ _ _

@[simp] theorem F64.sign_ofNat (n : Nat) : F64.sign (F64.ofNat n) = false := F64.sign_round _ _ _

/-- The magnitude of a rounded count of at least one unit is at least the least subnormal's. -/
theorem F64.round_pos (s : Bool) (n d : Nat) (hd : 0 < d) (h : d ≤ n) : 0 < F64.mag (F64.round s n d) := by
  rw [F64.mag_round]
  refine lt_min ?_ (by decide)
  have hq : 1 ≤ n / d := (Nat.one_le_div_iff hd).2 h
  by_cases hk : Nat.log2 (n / d) - 52 = 0
  · rw [hk]
    have : n / d ≤ F64.nearestEven n d := by simp only [F64.nearestEven]; split <;> omega
    simp; omega
  · exact Nat.add_pos_left (Nat.mul_pos (Nat.pos_of_ne_zero hk) (by norm_num)) _

theorem F64.isZero_ofNat_succ (n : Nat) : F64.isZero (F64.ofNat (n + 1)) = false := by
  have hn : 1 ≤ (n + 1) * F64.scale := Nat.mul_pos n.succ_pos F64.scale_pos
  have h := F64.round_pos false ((n + 1) * F64.scale) 1 Nat.one_pos hn
  exact decide_eq_false h.ne'

/-! ## `round` is to nearest, ties to even -/

/-- The units of a magnitude `k * 2^52 + q`, where `q` is a significand of exponent `k`, or the first of exponent
`k + 1`. -/
theorem F64.units_of_mag (a : F64) (k q : Nat) (hm : F64.mag a = k * 2 ^ 52 + q) (hq : q ≤ 2 ^ 53)
    (hk : k = 0 ∨ 2 ^ 52 ≤ q) : F64.units a = q * 2 ^ k := by
  rw [F64.units_eq]
  by_cases hs : F64.mag a < 2 ^ 52
  · have hk0 : k = 0 := by omega
    subst hk0
    rw [if_pos hs]; omega
  · rw [if_neg hs]
    rcases Nat.lt_or_ge q (2 ^ 52) with h | h
    · omega
    rcases Nat.lt_or_eq_of_le hq with h' | h'
    · rw [show F64.mag a / 2 ^ 52 - 1 = k by omega, show 2 ^ 52 + F64.mag a % 2 ^ 52 = q by omega]
    · rw [show F64.mag a / 2 ^ 52 - 1 = k + 1 by omega, show F64.mag a % 2 ^ 52 = 0 by omega, h', pow_succ]
      omega

/-- Units grow with the magnitude. -/
theorem F64.units_mono {a b : F64} (h : F64.mag a ≤ F64.mag b) : F64.units a ≤ F64.units b := by
  rw [F64.units_eq, F64.units_eq]
  split
  · split
    · exact h
    · exact le_trans (by omega) (Nat.le_mul_of_pos_right _ (by positivity))
  · rw [if_neg (by omega)]
    rcases Nat.lt_or_eq_of_le (Nat.div_le_div_right (c := 2 ^ 52) h) with h' | h'
    · calc (2 ^ 52 + F64.mag a % 2 ^ 52) * 2 ^ (F64.mag a / 2 ^ 52 - 1)
          ≤ 2 ^ 53 * 2 ^ (F64.mag a / 2 ^ 52 - 1) := Nat.mul_le_mul_right _ (by omega)
        _ = 2 ^ 52 * 2 ^ (F64.mag a / 2 ^ 52 - 1 + 1) := by rw [pow_succ]; ring
        _ ≤ 2 ^ 52 * 2 ^ (F64.mag b / 2 ^ 52 - 1) :=
            Nat.mul_le_mul_left _ (Nat.pow_le_pow_right (by decide) (by omega))
        _ ≤ _ := Nat.mul_le_mul_right _ (by omega)
    · rw [← h']; exact Nat.mul_le_mul_right _ (by omega)

/-- The next number up from significand `q` of exponent `k` has at least `q + 1` for its significand. -/
theorem F64.units_above (a : F64) (k q : Nat) (hm : k * 2 ^ 52 + q < F64.mag a) (hq : q ≤ 2 ^ 53)
    (hk : k = 0 ∨ 2 ^ 52 ≤ q) : (q + 1) * 2 ^ k ≤ F64.units a := by
  have hlt : k * 2 ^ 52 + (q + 1) < 2 ^ 63 := lt_of_le_of_lt hm (F64.mag_lt a)
  rcases Nat.lt_or_eq_of_le hq with h | h
  · have hb := F64.mag_ofMag false _ hlt
    rw [← F64.units_of_mag _ k (q + 1) hb h (hk.imp_right fun h => Nat.le_succ_of_le h)]
    exact F64.units_mono (hb.trans_le hm)
  · have hb := F64.mag_ofMag false _ hlt
    have hu := F64.units_of_mag (F64.ofMag false (k * 2 ^ 52 + (q + 1))) (k + 1) (2 ^ 52 + 1)
      (hb.trans (by rw [h]; ring)) (by norm_num) (.inr (Nat.le_succ _))
    calc (q + 1) * 2 ^ k ≤ ((2 ^ 52 + 1) * 2) * 2 ^ k := Nat.mul_le_mul_right _ (by omega)
      _ = (2 ^ 52 + 1) * 2 ^ (k + 1) := by rw [pow_succ]; ring
      _ = _ := hu.symm
      _ ≤ _ := F64.units_mono (by omega)

/-- Below significand `q + 1` of exponent `k` no number has more than `q` for its significand. -/
theorem F64.units_below (a : F64) (k q : Nat) (hm : F64.mag a < k * 2 ^ 52 + (q + 1)) (hq : q ≤ 2 ^ 53)
    (hk : k = 0 ∨ 2 ^ 52 ≤ q) (hlt : k * 2 ^ 52 + q < 2 ^ 63) : F64.units a ≤ q * 2 ^ k := by
  have hb := F64.mag_ofMag false _ hlt
  rw [← F64.units_of_mag _ k q hb hq hk]
  exact F64.units_mono (by omega)

/-- What `nearestEven` can do: round down with a remainder of at most half, or up with at least half; at half, to even. -/
theorem F64.nearestEven_cases (n d : Nat) :
    (F64.nearestEven n d = n / d ∧ 2 * (n % d) ≤ d ∧ (2 * (n % d) = d → n / d % 2 = 0)) ∨
    (F64.nearestEven n d = n / d + 1 ∧ d ≤ 2 * (n % d) ∧ (2 * (n % d) = d → (n / d + 1) % 2 = 0)) := by
  simp only [F64.nearestEven]
  split
  · right; omega
  · left; omega

/-- The magnitude of a `round`, as exponent and significand, up to the infinity's: the exponent is that of the last
place. -/
theorem F64.round_shape (s : Bool) (n d : Nat) :
    ∃ k, F64.mag (F64.round s n d) = min (k * 2 ^ 52 + F64.nearestEven n (d * 2 ^ k)) F64.infMag ∧
      n / (d * 2 ^ k) < 2 ^ 53 ∧ (k = 0 ∨ 2 ^ 52 ≤ n / (d * 2 ^ k)) := by
  refine ⟨Nat.log2 (n / d) - 52, ?_, ?_, ?_⟩
  · rw [F64.mag_round, Nat.shiftLeft_eq]
  · rw [← Nat.div_div_eq_div_mul, Nat.div_lt_iff_lt_mul (by positivity), ← pow_add]
    rcases Nat.eq_zero_or_pos (n / d) with h | h
    · rw [h]; positivity
    · exact (Nat.log2_lt h.ne').1 (by omega)
  · rcases Nat.eq_zero_or_pos (Nat.log2 (n / d) - 52) with h | h
    · exact .inl h
    · right
      rw [← Nat.div_div_eq_div_mul, Nat.le_div_iff_mul_le (by positivity), ← pow_add]
      have h0 : n / d ≠ 0 := fun h0 => by rw [h0, Nat.log2_zero] at h; omega
      exact (Nat.le_log2 h0).1 (by omega)

/-- A finite `round` of `n / d` units is a nearest number of units, and of two equally near an even one. -/
theorem F64.round_units_nearest (s : Bool) (n d : Nat) (hd : 0 < d) (hf : F64.isFinite (F64.round s n d) = true)
    (c : F64) :
    |((F64.units (F64.round s n d) : Int) * d - n)| ≤ |((F64.units c : Int) * d - n)| ∧
    (|((F64.units (F64.round s n d) : Int) * d - n)| = |((F64.units c : Int) * d - n)| →
      F64.units c = F64.units (F64.round s n d) ∨ F64.mag (F64.round s n d) % 2 = 0) := by
  obtain ⟨k, hm, hq, hk⟩ := F64.round_shape s n d
  have hf' : F64.mag (F64.round s n d) < F64.infMag := of_decide_eq_true hf
  replace hm : F64.mag (F64.round s n d) = k * 2 ^ 52 + F64.nearestEven n (d * 2 ^ k) := by omega
  have hlt := F64.mag_lt (F64.round s n d)
  set r := F64.round s n d
  set D := d * 2 ^ k with hD
  have hDp : 0 < D := by positivity
  have hn : n = n / D * D + n % D := by rw [Nat.mul_comm]; exact (Nat.div_add_mod n D).symm
  have hmod : n % D < D := Nat.mod_lt _ hDp
  set q := n / D
  set e := n % D
  have cast : ∀ u x : Nat, u = x * 2 ^ k → (u : Int) * d = (x : Int) * D := fun u x h => by
    rw [h, hD]; push_cast; ring
  have hnI : (n : Int) = (q : Int) * D + e := by rw [hn]; push_cast; ring
  have hdI : (d : Int) ≠ 0 := by exact_mod_cast hd.ne'
  have eqd : (F64.units c : Int) * d = (F64.units r : Int) * d → F64.units c = F64.units r := fun h => by
    exact_mod_cast mul_right_cancel₀ hdI h
  have le_of : ∀ u x : Nat, u ≤ x * 2 ^ k → (u : Int) * d ≤ (x : Int) * D := fun u x h => by
    rw [← cast _ x rfl]; exact_mod_cast Nat.mul_le_mul_right d h
  have ge_of : ∀ u x : Nat, x * 2 ^ k ≤ u → (x : Int) * D ≤ (u : Int) * d := fun u x h => by
    rw [← cast _ x rfl]; exact_mod_cast Nat.mul_le_mul_right d h
  have succD : ((q + 1 : Nat) : Int) * D = (q : Int) * D + D := by push_cast; ring
  have same : F64.mag c = F64.mag r → F64.units c = F64.units r := fun h => by
    rw [F64.units_eq, F64.units_eq, h]
  rcases F64.nearestEven_cases n D with ⟨hv, he, hev⟩ | ⟨hv, he, hev⟩
  · rw [hv] at hm
    have hu := F64.units_of_mag r k q hm hq.le hk
    have hr := cast _ q hu
    rcases Nat.lt_trichotomy (F64.mag c) (F64.mag r) with h | h | h
    · have hc := le_of _ q (hu ▸ F64.units_mono h.le)
      refine ⟨?_, fun heq => .inl (eqd ?_)⟩ <;>
        rcases abs_cases ((F64.units c : Int) * d - n) <;> rcases abs_cases ((F64.units r : Int) * d - n) <;> omega
    · rw [same h]; exact ⟨le_rfl, fun _ => .inl rfl⟩
    · have hc := ge_of _ (q + 1) (F64.units_above c k q (hm ▸ h) hq.le hk)
      refine ⟨?_, fun heq => .inr ?_⟩ <;>
        rcases abs_cases ((F64.units c : Int) * d - n) <;> rcases abs_cases ((F64.units r : Int) * d - n) <;> omega
  · rw [hv] at hm
    have hu := F64.units_of_mag r k (q + 1) hm hq (hk.imp_right fun h => Nat.le_succ_of_le h)
    have hr := cast _ (q + 1) hu
    rcases Nat.lt_trichotomy (F64.mag c) (F64.mag r) with h | h | h
    · have hc := le_of _ q (F64.units_below c k q (hm ▸ h) hq.le hk (by omega))
      refine ⟨?_, fun heq => .inr ?_⟩ <;>
        rcases abs_cases ((F64.units c : Int) * d - n) <;> rcases abs_cases ((F64.units r : Int) * d - n) <;> omega
    · rw [same h]; exact ⟨le_rfl, fun _ => .inl rfl⟩
    · have hc := ge_of _ (q + 1) (hu ▸ F64.units_mono h.le)
      refine ⟨?_, fun heq => .inl (eqd ?_)⟩ <;>
        rcases abs_cases ((F64.units c : Int) * d - n) <;> rcases abs_cases ((F64.units r : Int) * d - n) <;> omega

/-- The distance of a number from `n / d` units of sign `s`, in units. -/
theorem F64.abs_toRat_sub (s : Bool) (n d : Nat) (hd : 0 < d) (c : F64) :
    |F64.toRat c - (if s then -1 else 1) * ((n : ℚ) / d / F64.scale)| =
      ((if F64.sign c = s then |(F64.units c : Int) * d - n| else (F64.units c : Int) * d + n : Int) : ℚ) /
        (d * F64.scale) := by
  have hs : (0 : ℚ) < F64.scale := by exact_mod_cast F64.scale_pos
  have hd' : (0 : ℚ) < d := by exact_mod_cast hd
  have key : F64.toRat c - (if s then -1 else 1) * ((n : ℚ) / d / F64.scale) =
      ((F64.signedUnits c * d - (if s then -1 else 1) * n : Int) : ℚ) / (d * F64.scale) := by
    rw [F64.toRat]; cases s <;> push_cast <;> field_simp
  rw [key, abs_div, abs_of_pos (mul_pos hd' hs), ← Int.cast_abs]
  congr 2
  have hp : (0 : Int) ≤ (F64.units c : Int) * d := by positivity
  cases hc : F64.sign c <;> cases s <;> simp only [F64.signedUnits, hc, if_true, if_false, Bool.false_eq_true,
    Bool.true_eq_false, one_mul, neg_mul]
  · rw [abs_of_nonneg] <;> omega
  · rw [abs_of_nonpos] <;> omega
  · rw [← abs_neg]; congr 1; ring

/-- A finite `round` of `n / d` units is the number nearest to them, ties to even. -/
theorem F64.round_isNearestEven (s : Bool) (n d : Nat) (hd : 0 < d) (hf : F64.isFinite (F64.round s n d) = true) :
    F64.IsNearestEven ((if s then -1 else 1) * ((n : ℚ) / d / F64.scale)) (F64.round s n d) := by
  intro c _
  have hs : (0 : ℚ) < d * F64.scale := by
    have := F64.scale_pos
    positivity
  obtain ⟨hc, hce⟩ := F64.round_units_nearest s n d hd hf c
  obtain ⟨h0, h0e⟩ := F64.round_units_nearest s n d hd hf 0#64
  have hn : |((F64.units 0#64 : Nat) : Int) * d - n| = n := by simp
  rw [hn] at h0 h0e
  have hp : (0 : Int) ≤ (F64.units c : Int) * d := by positivity
  rw [F64.abs_toRat_sub s n d hd, F64.abs_toRat_sub s n d hd, if_pos (F64.sign_round s n d), div_le_div_iff_of_pos_right hs,
    div_left_inj' hs.ne', Int.cast_le, Int.cast_inj]
  have val : ∀ h : F64.units c = F64.units (F64.round s n d),
      (F64.sign c = s ∨ F64.units c = 0) → F64.toRat c = F64.toRat (F64.round s n d) := by
    intro h hsgn
    rw [F64.toRat, F64.toRat, F64.signedUnits, F64.signedUnits, F64.sign_round, h]
    rcases hsgn with h' | h'
    · rw [h']
    · rw [← h, h']; simp
  by_cases hsg : F64.sign c = s
  · rw [if_pos hsg]
    exact ⟨hc, fun h => (hce h).imp_left fun h => val h (.inl hsg)⟩
  · rw [if_neg hsg]
    refine ⟨by omega, fun h => ?_⟩
    have hz : (F64.units c : Int) * d = 0 := by omega
    have hu : F64.units c = 0 := by
      rcases mul_eq_zero.1 hz with h | h
      · exact_mod_cast h
      · exact absurd h (by exact_mod_cast hd.ne')
    exact (h0e (by omega)).imp_left fun h => val (by rw [hu, ← h, F64.units_zero]) (.inr hu)
/-! ## Overflow -/

/-- At the last exponent a significand rounds up to `2^53` exactly from `2^53 - 1/2` on. -/
theorem F64.nearestEven_lt_iff (n m : Nat) (hm : 0 < m) (hq : n / (2 * m) < 2 ^ 53) :
    F64.nearestEven n (2 * m) < 2 ^ 53 ↔ n < (2 ^ 54 - 1) * m := by
  have hn : n = 2 * m * (n / (2 * m)) + n % (2 * m) := (Nat.div_add_mod n _).symm
  have hr : n % (2 * m) < 2 * m := Nat.mod_lt _ (by omega)
  have hc := F64.nearestEven_cases n (2 * m)
  generalize n / (2 * m) = q at *
  generalize n % (2 * m) = r at *
  generalize F64.nearestEven n (2 * m) = v at *
  rcases Nat.lt_or_ge q (2 ^ 53 - 1) with h | h
  · have h3 : 2 * m * (q + 1) ≤ 2 * m * (2 ^ 53 - 1) := Nat.mul_le_mul_left _ h
    rw [Nat.mul_succ] at h3
    generalize 2 * m * q = z at *
    omega
  · obtain rfl : q = 2 ^ 53 - 1 := by omega
    omega

/-- `round` is finite exactly below half a last place above the largest finite number, `(2^54 - 1) * 2^2044` units. -/
theorem F64.isFinite_round_iff (s : Bool) (n d : Nat) (hd : 0 < d) :
    F64.isFinite (F64.round s n d) = true ↔ n < (2 ^ 54 - 1) * (d * 2 ^ 2044) := by
  obtain ⟨k, hm, hq, hk⟩ := F64.round_shape s n d
  have hv : F64.isFinite (F64.round s n d) = true ↔
      k * 2 ^ 52 + F64.nearestEven n (d * 2 ^ k) < 2047 * 2 ^ 52 := by
    rw [F64.isFinite, decide_eq_true_iff, hm, show F64.infMag = 2047 * 2 ^ 52 by decide]; omega
  rw [hv]
  have hc := F64.nearestEven_cases n (d * 2 ^ k)
  have hD : 0 < d * 2 ^ k := by positivity
  have h2 : ∀ i, d * 2 ^ (2044 + i) = 2 ^ i * (d * 2 ^ 2044) := fun i => by
    rw [pow_add, ← Nat.mul_assoc, Nat.mul_comm]
  have hp : ∀ i j, i ≤ j → d * 2 ^ i ≤ d * 2 ^ j := fun i j h =>
    Nat.mul_le_mul_left d (Nat.pow_le_pow_right Nat.two_pos h)
  rcases Nat.lt_trichotomy k 2045 with h | h | h
  · refine iff_of_true (by omega) ?_
    have h1 := hp k 2044 (Nat.le_of_lt_succ h)
    have h3 := (Nat.div_lt_iff_lt_mul hD).1 hq
    generalize d * 2 ^ 2044 = X at *
    omega
  · have h1 := h2 1
    have hX : 0 < d * 2 ^ 2044 := by positivity
    rw [h, show 2045 = 2044 + 1 from rfl, h1, pow_one] at hq ⊢
    have h3 := F64.nearestEven_lt_iff n _ hX hq
    rw [← h3]
    generalize F64.nearestEven n (2 * (d * 2 ^ 2044)) = v
    omega
  · refine iff_of_false (by omega) ?_
    have h1 := hp (2044 + 2) k h
    have h3 := (Nat.le_div_iff_mul_le hD).1 (hk.resolve_left (by omega))
    rw [h2 2] at h1
    generalize d * 2 ^ 2044 = X at *
    omega

/-- A `round` that is not finite is the infinity of its sign. -/
theorem F64.round_eq_inf (s : Bool) (n d : Nat) (hf : F64.isFinite (F64.round s n d) = false) :
    F64.round s n d = F64.inf s := by
  have hle := F64.round_mag_le s n d
  have hge : ¬ F64.mag (F64.round s n d) < F64.infMag := of_decide_eq_false hf
  rw [← F64.ofMag_sign_mag (F64.round s n d), F64.sign_round, show F64.mag (F64.round s n d) = F64.infMag by omega]
  rfl

/-- All `round` can do: it rounds `n / d` units of sign `s`. -/
theorem F64.round_isRounded (s : Bool) (n d : Nat) (hd : 0 < d) :
    F64.IsRounded ((if s then -1 else 1) * ((n : ℚ) / d / F64.scale)) (F64.round s n d) := by
  have hs : (0 : ℚ) < F64.scale := by exact_mod_cast F64.scale_pos
  have hd' : (0 : ℚ) < d := by exact_mod_cast hd
  have habs : |(if s then -1 else 1) * ((n : ℚ) / d / F64.scale)| = (n : ℚ) / d / F64.scale := by
    rw [abs_mul, abs_of_nonneg (show (0 : ℚ) ≤ (n : ℚ) / d / F64.scale by positivity)]
    cases s <;> simp
  have hscale : (F64.scale : ℚ) = 2 ^ 1074 := by
    unfold F64.scale; exact Nat.cast_pow 2 1074
  have hb : ((2 : ℚ) ^ 1024 - 2 ^ 970) * 2 ^ 1074 = (2 ^ 54 - 1) * 2 ^ 2044 := by
    rw [show (2 : ℚ) ^ 1024 = 2 ^ 54 * 2 ^ 970 by rw [← pow_add],
      show (2 : ℚ) ^ 2044 = 2 ^ 970 * 2 ^ 1074 by rw [← pow_add]]
    generalize (2 : ℚ) ^ 970 = x
    generalize (2 : ℚ) ^ 1074 = y
    ring
  have hiff : (n : ℚ) / d / F64.scale < 2 ^ 1024 - 2 ^ 970 ↔ n < (2 ^ 54 - 1) * (d * 2 ^ 2044) := by
    rw [div_lt_iff₀ hs, hscale, hb, div_lt_iff₀ hd']
    rw [show ((2 : ℚ) ^ 54 - 1) * 2 ^ 2044 * d = (((2 ^ 54 - 1) * (d * 2 ^ 2044) : Nat) : ℚ) by
      rw [Nat.cast_mul, Nat.cast_mul, Nat.cast_pow, Nat.cast_ofNat]
      generalize (2 : ℚ) ^ 2044 = y
      push_cast
      ring, Nat.cast_lt]
  rw [F64.IsRounded, habs]
  refine ⟨fun h => ?_, fun h => ?_⟩
  · have hf := (F64.isFinite_round_iff s n d hd).2 (hiff.1 h)
    exact ⟨hf, F64.round_isNearestEven s n d hd hf⟩
  · have hf : F64.isFinite (F64.round s n d) = false :=
      Bool.eq_false_iff.2 fun hf => absurd (hiff.2 ((F64.isFinite_round_iff s n d hd).1 hf)) (not_lt.2 h)
    rw [F64.round_eq_inf s n d hf]
    have hpos : 0 < (n : ℚ) / d / F64.scale := lt_of_lt_of_le
      (sub_pos.2 (pow_lt_pow_right₀ one_lt_two (by decide))) h
    cases s
    · simp [not_lt.2 hpos.le]
    · simp [hpos]

/-! ## Order -/

/-- The units of finite numbers are ordered as their magnitudes. -/
theorem F64.units_lt_iff {a b : F64} (ha : F64.isFinite a = true) (hb : F64.isFinite b = true) :
    F64.units a < F64.units b ↔ F64.mag a < F64.mag b := by
  refine ⟨fun h => ?_, fun h => lt_of_le_of_ne (F64.units_mono h.le) fun he => ?_⟩
  · by_contra hn
    exact absurd (F64.units_mono (not_lt.1 hn)) (not_le.2 h)
  · have h1 := F64.round_units false a 1 Nat.one_pos ha
    have h2 := F64.round_units false b 1 Nat.one_pos hb
    rw [he, h2] at h1
    have h3 := congrArg F64.mag h1
    rw [F64.mag_ofMag _ _ (F64.mag_lt b), F64.mag_ofMag _ _ (F64.mag_lt a)] at h3
    omega

/-- The order key of finite numbers orders them as their signed units. -/
theorem F64.key_lt_iff {a b : F64} (ha : F64.isFinite a = true) (hb : F64.isFinite b = true) :
    F64.key a < F64.key b ↔ F64.signedUnits a < F64.signedUnits b := by
  have h1 := F64.units_lt_iff ha hb
  have h2 := F64.units_lt_iff hb ha
  have za := F64.units_eq_zero_iff a
  have zb := F64.units_eq_zero_iff b
  unfold F64.key F64.signedUnits
  cases F64.sign a <;> cases F64.sign b <;> simp only [Bool.false_eq_true, if_true, if_false] <;> omega

end Sys2Proof
end

