-- ==== Sys2Proof/Laws/Num.lean ====
section
/-! SUPPORT. The operations of the two named instances of `NUM` (R7). -/

namespace Sys2Proof.Machine

section f64
variable (cos : F64 → F64)

@[simp] theorem Num.f64With_zero : (Num.f64With cos).zero = 0x0000000000000000#64 := rfl
@[simp] theorem Num.f64With_one : (Num.f64With cos).one = 0x3FF0000000000000#64 := rfl
@[simp] theorem Num.f64With_two : (Num.f64With cos).two = 0x4000000000000000#64 := rfl
@[simp] theorem Num.f64With_four : (Num.f64With cos).four = 0x4010000000000000#64 := rfl
@[simp] theorem Num.f64With_ofNat : (Num.f64With cos).ofNat = F64.ofNat := rfl
@[simp] theorem Num.f64With_add : (Num.f64With cos).add = F64.add := rfl
@[simp] theorem Num.f64With_sub : (Num.f64With cos).sub = F64.sub := rfl
@[simp] theorem Num.f64With_mul : (Num.f64With cos).mul = F64.mul := rfl
@[simp] theorem Num.f64With_div : (Num.f64With cos).div = F64.div := rfl
@[simp] theorem Num.f64With_pi : (Num.f64With cos).pi = 0x400921FB54442D18#64 := rfl
@[simp] theorem Num.f64With_gt : (Num.f64With cos).gt = F64.gt := rfl
@[simp] theorem Num.f64With_ge : (Num.f64With cos).ge = F64.ge := rfl
@[simp] theorem Num.f64With_isZero : (Num.f64With cos).isZero = F64.isZero := rfl
@[simp] theorem Num.f64With_isFinite : (Num.f64With cos).isFinite = F64.isFinite := rfl
@[simp] theorem Num.f64With_cos : (Num.f64With cos).cos = cos := rfl
@[simp] theorem Num.f64With_lit (d : Decimal) :
    (Num.f64With cos).lit d = F64.ofDecimal d.neg d.mant d.exp := rfl

end f64

/-- The machine's number system is `F64` with the configured cosine (R9). -/
theorem Num.f64_eq : Num.f64 = Num.f64With Config.cos := rfl

@[simp] theorem Num.f64_zero : Num.f64.zero = 0x0000000000000000#64 := rfl
@[simp] theorem Num.f64_one : Num.f64.one = 0x3FF0000000000000#64 := rfl
@[simp] theorem Num.f64_two : Num.f64.two = 0x4000000000000000#64 := rfl
@[simp] theorem Num.f64_four : Num.f64.four = 0x4010000000000000#64 := rfl
@[simp] theorem Num.f64_ofNat : Num.f64.ofNat = F64.ofNat := rfl
@[simp] theorem Num.f64_add : Num.f64.add = F64.add := rfl
@[simp] theorem Num.f64_sub : Num.f64.sub = F64.sub := rfl
@[simp] theorem Num.f64_mul : Num.f64.mul = F64.mul := rfl
@[simp] theorem Num.f64_div : Num.f64.div = F64.div := rfl
@[simp] theorem Num.f64_pi : Num.f64.pi = 0x400921FB54442D18#64 := rfl
@[simp] theorem Num.f64_gt : Num.f64.gt = F64.gt := rfl
@[simp] theorem Num.f64_ge : Num.f64.ge = F64.ge := rfl
@[simp] theorem Num.f64_isZero : Num.f64.isZero = F64.isZero := rfl
@[simp] theorem Num.f64_isFinite : Num.f64.isFinite = F64.isFinite := rfl

section real
variable (a b : ℝ)

@[simp] theorem Num.real_zero : Num.real.zero = 0 := rfl
@[simp] theorem Num.real_one : Num.real.one = 1 := rfl
@[simp] theorem Num.real_two : Num.real.two = 2 := rfl
@[simp] theorem Num.real_four : Num.real.four = 4 := rfl
@[simp] theorem Num.real_ofNat (n : Nat) : Num.real.ofNat n = (n : ℝ) := rfl
@[simp] theorem Num.real_add : Num.real.add a b = a + b := rfl
@[simp] theorem Num.real_sub : Num.real.sub a b = a - b := rfl
@[simp] theorem Num.real_mul : Num.real.mul a b = a * b := rfl
@[simp] theorem Num.real_div : Num.real.div a b = a / b := rfl
@[simp] theorem Num.real_cos : Num.real.cos = Real.cos := rfl
@[simp] theorem Num.real_pi : Num.real.pi = Real.pi := rfl
@[simp] theorem Num.real_lit (d : Decimal) : Num.real.lit d = d.toReal := rfl
@[simp] theorem Num.real_isFinite : Num.real.isFinite a = true := rfl
@[simp] theorem Num.real_gt_iff : Num.real.gt a b = true ↔ b < a := decide_eq_true_iff
@[simp] theorem Num.real_ge_iff : Num.real.ge a b = true ↔ b ≤ a := decide_eq_true_iff
@[simp] theorem Num.real_isZero_iff : Num.real.isZero a = true ↔ a = 0 := decide_eq_true_iff
@[simp] theorem Num.real_isZero_eq_false_iff : Num.real.isZero a = false ↔ a ≠ 0 := decide_eq_false_iff_not

end real

end Sys2Proof.Machine
end

