-- ==== Sys2Proof/Laws/State.lean ====
section
/-! SUPPORT. One lemma per field per update, and the laws of the eight-lane bank, so that no proof unfolds a record
update. -/

namespace Sys2Proof.Machine

/-! ## Banks -/

@[simp] theorem Bank.get_gen {β : Type} (f : Fin 8 → β) (k : Fin 8) : (Bank.gen f).get k = f k := by
  fin_cases k <;> rfl

@[ext] theorem Bank.ext_get {β : Type} {a b : Bank β} (h : ∀ k, a.get k = b.get k) : a = b := by
  cases a; cases b
  exact Bank.mk.injEq .. ▸ ⟨h 0, h 1, h 2, h 3, h 4, h 5, h 6, h 7⟩

@[simp] theorem Bank.gen_get {β : Type} (b : Bank β) : Bank.gen b.get = b := rfl

@[simp] theorem Bank.gen_inj {β : Type} {f g : Fin 8 → β} : Bank.gen f = Bank.gen g ↔ ∀ k, f k = g k :=
  ⟨fun h k => by simpa using congrArg (Bank.get · k) h, fun h => by rw [funext h]⟩

theorem Bank.eq_gen_iff {β : Type} (b : Bank β) (f : Fin 8 → β) : b = Bank.gen f ↔ ∀ k, b.get k = f k :=
  ⟨fun h k => by simp [h], fun h => Bank.ext_get fun k => by simp [h]⟩

/-! ## The bank's operations -/

@[simp] theorem bankStep_get {α : Type} (N : Num α) (cfg : Cfg α) (x : α) (cells : Bank (Cell α)) (k : Fin 8) :
    (bankStep N cfg x cells).get k = cellStep N (coeff N cfg k) x (cells.get k) := Bank.get_gen _ k

@[simp] theorem bankReset_get {α : Type} (N : Num α) (k : Fin 8) : (bankReset N).get k = Cell.reset N.zero :=
  Bank.get_gen _ k

@[simp] theorem bankEnergies_get {α : Type} (cells : Bank (Cell α)) (k : Fin 8) :
    (bankEnergies cells).get k = (cells.get k).en := Bank.get_gen _ k

section cell
variable {α : Type} (N : Num α) (c x : α) (cell : Cell α)

@[simp] theorem cellStep_s1 : (cellStep N c x cell).s1 = cellOutput N c x cell := rfl
@[simp] theorem cellStep_s2 : (cellStep N c x cell).s2 = cell.s1 := rfl
@[simp] theorem cellStep_tp : (cellStep N c x cell).tp = cellTotalPower N x cell := rfl
@[simp] theorem cellStep_cnt : (cellStep N c x cell).cnt = cell.cnt + 1 := rfl
@[simp] theorem cellStep_en : (cellStep N c x cell).en =
    N.div (N.div (cellPower N c (cellOutput N c x cell) cell) (cellTotalPower N x cell)) (N.ofNat (cell.cnt + 1)) := rfl

@[simp] theorem Cell.reset_s1 (z : α) : (Cell.reset z).s1 = z := rfl
@[simp] theorem Cell.reset_s2 (z : α) : (Cell.reset z).s2 = z := rfl
@[simp] theorem Cell.reset_tp (z : α) : (Cell.reset z).tp = z := rfl
@[simp] theorem Cell.reset_cnt (z : α) : (Cell.reset z).cnt = 0 := rfl
@[simp] theorem Cell.reset_en (z : α) : (Cell.reset z).en = z := rfl
end cell

/-! ## Updates of a block -/

section block
variable {α : Type} (N : Num α) (x : α) (c : FaultCode) (b : Block α)

@[simp] theorem Block.fbReset_cfg : (b.fbReset N).cfg = b.cfg := rfl
@[simp] theorem Block.fbReset_cells : (b.fbReset N).cells = bankReset N := rfl
@[simp] theorem Block.fbReset_mode : (b.fbReset N).mode = b.mode := rfl
@[simp] theorem Block.fbReset_len : (b.fbReset N).len = b.len := rfl
@[simp] theorem Block.fbReset_idx : (b.fbReset N).idx = b.idx := rfl
@[simp] theorem Block.fbReset_fcode : (b.fbReset N).fcode = b.fcode := rfl

@[simp] theorem Block.fbSample_cfg : (b.fbSample N x).cfg = b.cfg := rfl
@[simp] theorem Block.fbSample_cells : (b.fbSample N x).cells = bankStep N b.cfg x b.cells := rfl
@[simp] theorem Block.fbSample_mode : (b.fbSample N x).mode = b.mode := rfl
@[simp] theorem Block.fbSample_len : (b.fbSample N x).len = b.len := rfl
@[simp] theorem Block.fbSample_idx : (b.fbSample N x).idx = b.idx := rfl
@[simp] theorem Block.fbSample_fcode : (b.fbSample N x).fcode = b.fcode := rfl

@[simp] theorem Block.raiseFault_cfg : (b.raiseFault c).1.cfg = b.cfg := rfl
@[simp] theorem Block.raiseFault_cells : (b.raiseFault c).1.cells = b.cells := rfl
@[simp] theorem Block.raiseFault_mode : (b.raiseFault c).1.mode = .fault := rfl
@[simp] theorem Block.raiseFault_len : (b.raiseFault c).1.len = b.len := rfl
@[simp] theorem Block.raiseFault_idx : (b.raiseFault c).1.idx = b.idx := rfl
@[simp] theorem Block.raiseFault_fcode : (b.raiseFault c).1.fcode = faultBits c := rfl
@[simp] theorem Block.raiseFault_result : (b.raiseFault c).2 = none := rfl

@[simp] theorem Block.unchanged_fst : b.unchanged.1 = b := rfl
@[simp] theorem Block.unchanged_snd : b.unchanged.2 = none := rfl

@[simp] theorem Block.resetState_cfg (z : α) (cfg : Cfg α) : (Block.resetState z cfg).cfg = cfg := rfl
@[simp] theorem Block.resetState_cells (z : α) (cfg : Cfg α) (k : Fin 8) :
    (Block.resetState z cfg).cells.get k = Cell.reset z := Bank.get_gen _ k
@[simp] theorem Block.resetState_mode (z : α) (cfg : Cfg α) : (Block.resetState z cfg).mode = .idle := rfl
@[simp] theorem Block.resetState_len (z : α) (cfg : Cfg α) : (Block.resetState z cfg).len = 0 := rfl
@[simp] theorem Block.resetState_idx (z : α) (cfg : Cfg α) : (Block.resetState z cfg).idx = 0 := rfl
@[simp] theorem Block.resetState_fcode (z : α) (cfg : Cfg α) : (Block.resetState z cfg).fcode = 0#3 := rfl
end block

/-! ## Updates of the machine's state -/

section state
variable (s : State) (o : Output F64) (nbits w : Nat)

@[simp] theorem State.commit_toBlock : (s.commit o).toBlock = o.1 := rfl
@[simp] theorem State.commit_result : (s.commit o).result = o.2 := rfl
@[simp] theorem State.commit_port : (s.commit o).port = s.port := rfl

@[simp] theorem State.takeInput_toBlock : s.takeInput.toBlock = s.toBlock := rfl
@[simp] theorem State.takeInput_result : s.takeInput.result = s.result := rfl
@[simp] theorem State.takeInput_port : s.takeInput.port = s.port.tail := rfl

@[simp] theorem State.presentFirst_toBlock : (s.presentFirst nbits w).toBlock = s.toBlock := rfl
@[simp] theorem State.presentFirst_result : (s.presentFirst nbits w).result = s.result := rfl
@[simp] theorem State.presentFirst_port :
    (s.presentFirst nbits w).port = { rst := false, cmd := BitVec.ofNat 66 (w % 2 ^ nbits) } :: s.port := rfl
end state

end Sys2Proof.Machine
end

