-- ==== Sys2Proof/Laws/Ops.lean ====
section
/-! SUPPORT. What each shared operation can do, said once: the cases of the commands, of the step function of R160, and of
`exec` and `step` in its terms. -/

namespace Sys2Proof.Machine

section block
variable {α : Type} (N : Num α) (b : Block α)

/-- A reset step leaves the reset state of the same configuration, and no result (R220, R34). -/
theorem Block.rst_eq : b.rst N = (Block.resetState N.zero b.cfg, none) := rfl

/-- Frame completion leaves the reset state but for `fcode`, which it does not write (R164). -/
theorem Block.complete_eq :
    b.complete N =
      ({ Block.resetState N.zero b.cfg with fcode := b.fcode }, some (resultOf N b.energies b.cfg.energyThreshold)) :=
  rfl

/-- What `BEGIN` can do in `IDLE` or `ACC` (R162): three faults or the start of a frame. -/
theorem Block.beginFrame_cases (data : Payload) :
    (b.mode = .acc ∧ b.beginFrame N data = b.raiseFault .beginInFrame) ∨
    (b.mode ≠ .acc ∧ reservedBits b.cfg.lenW data ≠ 0#64 ∧ b.beginFrame N data = b.raiseFault .illegalCmd) ∨
    (b.mode ≠ .acc ∧ reservedBits b.cfg.lenW data = 0#64 ∧ frameLength b.cfg.lenW data = 0 ∧
      b.beginFrame N data = b.raiseFault .lenZero) ∨
    (b.mode ≠ .acc ∧ reservedBits b.cfg.lenW data = 0#64 ∧ frameLength b.cfg.lenW data ≠ 0 ∧
      b.beginFrame N data =
        ({ b.fbReset N with len := frameLength b.cfg.lenW data, idx := 0, mode := .acc }, none)) := by
  unfold Block.beginFrame
  by_cases hm : b.mode = .acc <;> by_cases hr : reservedBits b.cfg.lenW data = 0#64 <;>
    by_cases hn : frameLength b.cfg.lenW data = 0 <;> simp [hm, hr, hn]

/-- What `SAMPLE` can do in `IDLE` or `ACC` (R163, R164): two faults, the next sample of a frame, or the last. -/
theorem Block.sample_cases (x : α) :
    (b.mode = .idle ∧ b.sample N x = b.raiseFault .sampleOutsideFrame) ∨
    (b.mode ≠ .idle ∧ N.isFinite x = false ∧ b.sample N x = b.raiseFault .sampleNonfinite) ∨
    (b.mode ≠ .idle ∧ N.isFinite x = true ∧ b.idx + 1 < b.len ∧
      b.sample N x = ({ b.fbSample N (windowed N x b.idx b.len) with idx := b.idx + 1 }, none)) ∨
    (b.mode ≠ .idle ∧ N.isFinite x = true ∧ ¬ b.idx + 1 < b.len ∧
      b.sample N x = (b.fbSample N (windowed N x b.idx b.len)).complete N) := by
  unfold Block.sample
  by_cases hm : b.mode = .idle <;> by_cases hf : N.isFinite x = false <;> by_cases hl : b.idx + 1 < b.len <;>
    simp_all

/-- What a step can do (R160, R167): reset, nothing at all, fault entry, the start of a frame, the next sample, the last
sample. -/
theorem Block.step_cases (rst : Bool) (c : Command α) :
    (rst = true ∧ b.step N rst c = (Block.resetState N.zero b.cfg, none)) ∨
    (rst = false ∧ (b.mode = .fault ∨ c = .nop) ∧ b.step N rst c = (b, none)) ∨
    (rst = false ∧ b.mode ≠ .fault ∧ ∃ f, b.step N rst c = b.raiseFault f) ∨
    (rst = false ∧ b.mode = .idle ∧ ∃ data, c = .beginFrame data ∧ reservedBits b.cfg.lenW data = 0#64 ∧
      frameLength b.cfg.lenW data ≠ 0 ∧
      b.step N rst c = ({ b.fbReset N with len := frameLength b.cfg.lenW data, idx := 0, mode := .acc }, none)) ∨
    (rst = false ∧ b.mode = .acc ∧ ∃ x, c = .sample x ∧ N.isFinite x = true ∧ b.idx + 1 < b.len ∧
      b.step N rst c = ({ b.fbSample N (windowed N x b.idx b.len) with idx := b.idx + 1 }, none)) ∨
    (rst = false ∧ b.mode = .acc ∧ ∃ x, c = .sample x ∧ N.isFinite x = true ∧ ¬ b.idx + 1 < b.len ∧
      b.step N rst c = (b.fbSample N (windowed N x b.idx b.len)).complete N) := by
  cases rst with
  | true => exact .inl ⟨rfl, rfl⟩
  | false =>
    by_cases hm : b.mode = .fault
    · exact .inr (.inl ⟨rfl, .inl hm, by simp [Block.step, hm, Block.unchanged]⟩)
    cases c with
    | nop => exact .inr (.inl ⟨rfl, .inr rfl, by simp [Block.step, hm, Block.nop, Block.unchanged]⟩)
    | rsvd => exact .inr (.inr (.inl ⟨rfl, hm, .illegalCmd, by simp [Block.step, hm, Block.rsvd]⟩))
    | beginFrame data =>
      have hs : b.step N false (.beginFrame data) = b.beginFrame N data := by simp [Block.step, hm]
      rcases b.beginFrame_cases N data with ⟨_, h⟩ | ⟨_, _, h⟩ | ⟨_, _, _, h⟩ | ⟨ha, hr, hn, h⟩
      · exact .inr (.inr (.inl ⟨rfl, hm, _, hs.trans h⟩))
      · exact .inr (.inr (.inl ⟨rfl, hm, _, hs.trans h⟩))
      · exact .inr (.inr (.inl ⟨rfl, hm, _, hs.trans h⟩))
      · have hi : b.mode = .idle := by cases h' : b.mode <;> simp_all
        exact .inr (.inr (.inr (.inl ⟨rfl, hi, data, rfl, hr, hn, hs.trans h⟩)))
    | sample x =>
      have hs : b.step N false (.sample x) = b.sample N x := by simp [Block.step, hm]
      rcases b.sample_cases N x with ⟨_, h⟩ | ⟨_, _, h⟩ | ⟨hi, hf, hl, h⟩ | ⟨hi, hf, hl, h⟩
      · exact .inr (.inr (.inl ⟨rfl, hm, _, hs.trans h⟩))
      · exact .inr (.inr (.inl ⟨rfl, hm, _, hs.trans h⟩))
      · have ha : b.mode = .acc := by cases h' : b.mode <;> simp_all
        exact .inr (.inr (.inr (.inr (.inl ⟨rfl, ha, x, rfl, hf, hl, hs.trans h⟩))))
      · have ha : b.mode = .acc := by cases h' : b.mode <;> simp_all
        exact .inr (.inr (.inr (.inr (.inr ⟨rfl, ha, x, rfl, hf, hl, hs.trans h⟩))))

end block

/-- Every meaning is the step of R160 on the decoded command, its output taken by the state. -/
theorem exec_eq_step (i : Instr) (s : State) :
    exec i s = .next (s.commit (s.toBlock.step Num.f64 false (commandOf i))) := by
  cases i <;> rfl

/-- A step is the step of R160 on the next input, taken from the port. -/
theorem step_eq (s : State) :
    step s = .next (s.takeInput.commit
      (s.toBlock.step Num.f64 s.nextInput.rst (commandOf (decode s.cfg.lenW s.nextInput.cmd)))) := by
  unfold step
  cases h : s.nextInput.rst with
  | true => rfl
  | false => exact exec_eq_step _ _

/-- The only next state of a step. -/
theorem step_next_iff (s t : State) :
    step s = .next t ↔ t = s.takeInput.commit
      (s.toBlock.step Num.f64 s.nextInput.rst (commandOf (decode s.cfg.lenW s.nextInput.cmd))) := by
  rw [step_eq]; exact ⟨fun h => (Host.Outcome.next.inj h).symm, fun h => h ▸ rfl⟩

/-- The only next state of an instruction. -/
theorem exec_next_iff (i : Instr) (s t : State) :
    exec i s = .next t ↔ t = s.commit (s.toBlock.step Num.f64 false (commandOf i)) := by
  rw [exec_eq_step]; exact ⟨fun h => (Host.Outcome.next.inj h).symm, fun h => h ▸ rfl⟩

end Sys2Proof.Machine
end

