-- ==== Sys2Proof/Laws/PerInstr.lean ====
section
/-! SUPPORT. Statements made per instruction. -/

namespace Sys2Proof.Laws.RowMatch

/-- The first row of the opcode table that the word of a well-formed command selects, "rows are tried in this order", is
the command's own row (`30_encoding.md` section 3, R81; `LEN_W = 32`). -/
def Statement (i : Instr) : Prop :=
  i.wellFormed 32 = true →
    (opcodeRows.find? fun r => r.selects (encode i)).map OpcodeRow.mnemonic = some i.mnemonic

/-- Whether a row selects a word of given fields, as a Boolean. -/
theorem selects_eq (name : String) (op m op' : BitVec 2) (d e data : Payload) :
    OpcodeRow.selects ⟨name, commandWord op d, commandWord m e⟩ (commandWord op' data) =
      (decide (op' &&& m = op) && decide (data &&& e = d)) := by
  rw [Bool.eq_iff_iff, row_selects_iff]; simp

theorem nop (data : Payload) : Statement (.nop data) := by
  intro _
  simp [opcodeRows_eq, encode, selects_eq, Instr.mnemonic]

theorem beginFrame (data : Payload) : Statement (.beginFrame data) := by
  intro h
  simp only [Instr.wellFormed, Bool.and_eq_true, decide_eq_true_eq] at h
  have hb : decide (data.toNat < 4294967296) = true := by simpa using h.2
  simp [opcodeRows_eq, encode, selects_eq, Instr.mnemonic, List.find?, and_upper_half_eq_zero_iff, hb]

theorem beginRsvbits (data : Payload) : Statement (.beginRsvbits data) := by
  intro h
  simp only [Instr.wellFormed, Bool.and_eq_true, decide_eq_true_eq] at h
  have hb : decide (data.toNat < 4294967296) = false := by simpa using h.2
  simp [opcodeRows_eq, encode, selects_eq, Instr.mnemonic, List.find?, and_upper_half_eq_zero_iff, hb]

theorem sample (x : F64) : Statement (.sample x) := by
  intro _
  simp [opcodeRows_eq, encode, selects_eq, Instr.mnemonic, List.find?]

theorem rsvd (data : Payload) : Statement (.rsvd data) := by
  intro _
  simp [opcodeRows_eq, encode, selects_eq, Instr.mnemonic, List.find?]

end Sys2Proof.Laws.RowMatch
end

