-- ==== Sys2Proof/Tests/Slice0.lean ====
section
/-! SUPPORT. Tests against the spec's tables (`30_encoding.md`, `95_test_vectors.md`), and for every statement with
hypotheses a concrete state and operands that meet them. -/

namespace Sys2Proof.Tests

open Sys2Proof Sys2Proof.Machine

/-! ## Numbers, cells and states the tests use -/

def one : F64 := 0x3FF0000000000000#64
def two : F64 := 0x4000000000000000#64
def half : F64 := 0x3FE0000000000000#64
def minusOne : F64 := 0xBFF0000000000000#64
def minusZero : F64 := 0x8000000000000000#64
def posInf : F64 := 0x7FF0000000000000#64
def maxFinite : F64 := 0x7FEFFFFFFFFFFFFF#64
def aNaN : F64 := 0x7FF8000000000000#64

/-- `F64` with a cosine that is 1 everywhere; it has the property `COS_ZERO`. -/
def numOne : Num F64 := Num.f64With fun _ => one

/-- The state within a frame of length `n`, at index `i`, with the cells of the reset state. -/
def accState (n i : Nat) : State := { State.reset with mode := .acc, len := n, idx := i }

/-- The state after a fault. -/
def faultState (c : FaultCode) : State := { State.reset with mode := .fault, fcode := faultBits c }

/-- An idle instance of another configuration: 8000 Hz, threshold 0.5, `LEN_W = 16`. -/
def idleState : State :=
  { State.reset with cfg := { sampleRate := 0x40BF400000000000#64, energyThreshold := half, lenW := 16 } }

/-- A state that the input `(rst, cmd)` is presented to. -/
def given (s : State) (rst : Bool) (cmd : CmdWord) : State := { s with port := [{ rst := rst, cmd := cmd }] }

/-- The next state of an instruction, and of a step. -/
def after (i : Instr) (s : State) : State :=
  match exec i s with
  | .next t => t
  | .fault _ => s
  | .refused _ => s

/-- Whether an outcome is the next state `t`. -/
def isNext (o : Host.Outcome State Fault Refusal) (t : State) : Bool :=
  match o with
  | .next u => decide (u = t)
  | .fault _ => false
  | .refused _ => false

theorem eq_next_of_isNext {o : Host.Outcome State Fault Refusal} {t : State} (h : isNext o t = true) :
    o = .next t := by
  cases o <;> simp_all [isNext]

/-! ## What the kernel evaluates, once for the tests and witnesses below -/

theorem evaluated :
    (F64.add 0x4340000000000000#64 one = 0x4340000000000000#64) ∧
    (F64.div one 0x4008000000000000#64 = 0x3FD5555555555555#64) ∧
    (F64.mul 0x0010000000000000#64 half = 0x0008000000000000#64) ∧
    (F64.sub minusZero minusZero = 0#64) ∧
    (F64.mul 0x7FEFFFFFFFFFFFFF#64 two = posInf) ∧
    (F64.ofDecimal false 1 (-3) = 0x3F50624DD2F1A9FC#64) ∧
    (cellStep numOne two one (cellStep numOne two one (Cell.reset 0#64)) =
      { s1 := 0x4008000000000000#64, s2 := one, tp := two, cnt := 2, en := 0x4002000000000000#64 }) ∧
    ((cellStep numOne minusOne one (cellStep numOne minusOne one (Cell.reset 0#64))).en = 0#64) ∧
    ((cellStep numOne one two (cellStep numOne one minusZero (Cell.reset 0#64))).tp = 0x4014000000000000#64) ∧
    (win numOne 0 5 = 0x3F7C2D27807789C0#64) ∧
    (F64.isZero (F64.add (Cell.reset (0#64 : F64)).tp (F64.mul half half)) = false) ∧
    (F64.isFinite two = true ∧ F64.isFinite 0x1E60000000000000#64 = true ∧
      F64.isFinite (F64.mul two 0x1E60000000000000#64) = true ∧
      F64.isFinite (F64.mul 0x1E60000000000000#64 0x1E60000000000000#64) = true ∧
      F64.isZero (F64.mul 0x1E60000000000000#64 0x1E60000000000000#64) = false) ∧
    (∀ k, F64.isFinite (coeff numOne Cfg.default k) = true) ∧
    (∀ i, i < 2 → F64.isFinite (win numOne i 2) = true) ∧
    (F64.add maxFinite 0x7C90000000000000#64 = posInf ∧ F64.add maxFinite 0x7C8FFFFFFFFFFFFF#64 = maxFinite) ∧
    (|F64.toRat maxFinite + F64.toRat 0x7C8FFFFFFFFFFFFF#64| < 2 ^ 1024 - 2 ^ 970 ∧
      F64.toRat maxFinite + F64.toRat 0x7C90000000000000#64 = 2 ^ 1024 - 2 ^ 970) := by decide +kernel

/-! ## `WellFormed`: each check refuses an ill-formed term -/

theorem test_wf_lenW_zero : (Instr.nop 0#64).wellFormed 0 = false := by decide
theorem test_wf_lenW_65 : (Instr.sample one).wellFormed 65 = false := by decide
theorem test_wf_begin_reserved_bit : (Instr.beginFrame 0x100000000#64).wellFormed 32 = false := by decide
theorem test_wf_begin_rsvbits_none_set : (Instr.beginRsvbits 0xFFFFFFFF#64).wellFormed 32 = false := by decide
theorem test_wf_begin_lenW_64 : (Instr.beginFrame 0xFFFFFFFFFFFFFFFF#64).wellFormed 64 = true := by decide

/-! ## Decoding: words written out bit by bit from R70 and R71 (`op` in bits 65:64, then `data`) -/

theorem test_decode_nop : decode 32
    0b00_0000000000000000000000000000000000000000000000000000000000000000#66 = .nop 0#64 := by decide
theorem test_decode_begin_4 : decode 32
    0b01_0000000000000000000000000000000000000000000000000000000000000100#66 = .beginFrame 4#64 := by decide
theorem test_decode_begin_reserved : decode 32
    0b01_0000000000000000000000000000000100000000000000000000000000000000#66 =
      .beginRsvbits 0x100000000#64 := by decide
theorem test_decode_sample_one : decode 32
    0b10_0011111111110000000000000000000000000000000000000000000000000000#66 = .sample one := by decide
theorem test_decode_rsvd : decode 32
    0b11_1111111111111111111111111111111111111111111111111111111111111111#66 =
      .rsvd 0xFFFFFFFFFFFFFFFF#64 := by decide
/-- With `LEN_W = 64` there are no reserved bits (R73). -/
theorem test_decode_begin_lenW_64 : decode 64 0x1FFFFFFFFFFFFFFFF#66 = .beginFrame 0xFFFFFFFFFFFFFFFF#64 := by decide
theorem test_decodeTableWord : decodeTableWord 66 0x23FF0000000000000 = some (.sample one) := by decide
theorem test_decodeTableWord_first_bits : decodeTableWord 64 0x3FF0000000000000 = some (.nop one) := by decide

/-! ## Commands: rows of `95_test_vectors.md` section 2.8 -/

theorem test_nop_keeps_frame : after (.nop 7#64) (accState 4 2) = accState 4 2 := by decide
theorem test_begin_starts_frame : after (.beginFrame 4#64) State.reset = accState 4 0 := by decide
theorem test_begin_zero_faults : after (.beginFrame 0#64) State.reset = faultState .lenZero := by decide
theorem test_begin_zero_in_frame : (after (.beginFrame 0#64) (accState 4 1)).fcode = 3#3 := by decide
theorem test_begin_reserved_faults :
    after (.beginRsvbits 0x100000000#64) State.reset = faultState .illegalCmd := by decide
theorem test_begin_reserved_in_frame : (after (.beginRsvbits 0x100000000#64) (accState 4 1)).status = 0x0B#5 := by decide
theorem test_sample_nan_idle : (after (.sample aNaN) State.reset).status = 0x0C#5 := by decide
theorem test_sample_inf_in_frame : (after (.sample posInf) (accState 4 3)).status = 0x0D#5 := by decide
theorem test_rsvd_faults : (after (.rsvd 0#64) (accState 4 1)).status = 0x09#5 := by decide
theorem test_fault_ignores : after (.beginFrame 4#64) (faultState .lenZero) = faultState .lenZero := by decide
theorem test_sample_counts : (after (.sample one) (accState 4 2)).idx = 3 := by decide
theorem test_last_sample_idle : (after (.sample one) (accState 4 3)).mode = .idle := by decide
theorem test_reset_wins :
    step (given (faultState .lenZero) true 0x30000000000000000#66) = .next State.reset :=
  eq_next_of_isNext (by decide)

/-! ## Arithmetic and `FB.SAMPLE`: `95_test_vectors.md` section 2.4 -/

theorem test_round_tie_to_even :
    F64.add 0x4340000000000000#64 one = 0x4340000000000000#64 := evaluated.1
theorem test_div_rounds :
    F64.div one 0x4008000000000000#64 = 0x3FD5555555555555#64 := evaluated.2.1
theorem test_mul_subnormal :
    F64.mul 0x0010000000000000#64 half = 0x0008000000000000#64 := evaluated.2.2.1
theorem test_exact_zero_sum :
    F64.sub minusZero minusZero = 0#64 := evaluated.2.2.2.1
theorem test_overflow :
    F64.mul 0x7FEFFFFFFFFFFFFF#64 two = posInf := evaluated.2.2.2.2.1
/-- Half a last place above the largest finite number overflows; anything less does not (nearest, ties to even). -/
theorem test_overflow_boundary :
    F64.add maxFinite 0x7C90000000000000#64 = posInf ∧ F64.add maxFinite 0x7C8FFFFFFFFFFFFF#64 = maxFinite :=
  evaluated.2.2.2.2.2.2.2.2.2.2.2.2.2.2.1
theorem test_compare_negative : F64.gt minusOne 0xC000000000000000#64 = true ∧ F64.ge minusZero 0#64 = true := by decide
theorem test_lit_1e_minus_3 :
    F64.ofDecimal false 1 (-3) = 0x3F50624DD2F1A9FC#64 := evaluated.2.2.2.2.2.1

/-- Sequence D, step 2: `c = 2`, samples 1, 1 give `en = 9/4`. -/
theorem test_sequence_D :
    cellStep numOne two one (cellStep numOne two one (Cell.reset 0#64)) =
      { s1 := 0x4008000000000000#64, s2 := one, tp := two, cnt := 2, en := 0x4002000000000000#64 } := evaluated.2.2.2.2.2.2.1

/-- Sequence C, step 2: `c = -1`, samples 1, 1 give a power of exactly 0 (the power uses the pre-shift `s2`). -/
theorem test_sequence_C :
    (cellStep numOne minusOne one (cellStep numOne minusOne one (Cell.reset 0#64))).en = 0#64 := evaluated.2.2.2.2.2.2.2.1

/-- Sequence F, step 2: the clamp of step 1 stays in `tp`. -/
theorem test_sequence_F :
    (cellStep numOne one two (cellStep numOne one minusZero (Cell.reset 0#64))).tp = 0x4014000000000000#64 := evaluated.2.2.2.2.2.2.2.2.1

/-- The literals' sum `A0 - A1 + A2` under `F64` (section 2.3). -/
theorem test_first_weight :
    win numOne 0 5 = 0x3F7C2D27807789C0#64 := evaluated.2.2.2.2.2.2.2.2.2.1

/-! ## The Tone Interpreter: sections 2.6 and 2.7 -/

/-- G8: 0.3, 0.1, 0.4, 0.4 at threshold 0.35 selects 2. -/
theorem test_groupsel_G8 :
    groupSel numOne ⟨0x3FD3333333333333#64, 0x3FB999999999999A#64, 0x3FD999999999999A#64, 0x3FD999999999999A#64,
      0#64, 0#64, 0#64, 0#64⟩ .low 0x3FD6666666666666#64 = some 2 := by decide
/-- G13: NaN, 0.2, NaN, 0.1 selects 1. -/
theorem test_groupsel_G13 :
    groupSel numOne ⟨0#64, 0#64, 0#64, 0#64, aNaN, 0x3FC999999999999A#64, aNaN, 0x3FB999999999999A#64⟩ .high 0#64 =
      some 1 := by decide
/-- X10: `#`. -/
theorem test_select_X10 :
    resWord (resultOf numOne ⟨0#64, 0#64, 0#64, 0x3FD999999999999A#64, 0x3FC999999999999A#64, 0x3FC999999999999A#64,
      0x3FECCCCCCCCCCCCD#64, 0x3FECCCCCCCCCCCCD#64⟩ 0x3FD3333333333333#64) = 0x3E23#14 := by decide
/-- X9: a low tone alone is no symbol. -/
theorem test_select_X9 :
    resWord (resultOf numOne ⟨half, 0#64, 0#64, 0#64, 0#64, 0#64, 0#64, 0#64⟩ 0#64) = 0x2000#14 := by decide

/-! ## The assembler: the examples of R79 and R80 -/

theorem test_parse_begin :
    parseLine "BEGIN 0xCD ; a comment".toList = some (some (.beginN 205)) := by decide
theorem test_parse_sample_decimal :
    parseLine "SAMPLE -0.5".toList = some (some (.sample (.literal ⟨true, 5, -1⟩))) := by decide
theorem test_parse_sample_bits :
    parseLine "SAMPLE f64:0x7FF8000000000000".toList = some (some (.sample (.bits aNaN))) := by decide
theorem test_parse_frame : parseLine "FRAME 1.0, 1e-3".toList =
    some (some (.frame [.literal ⟨false, 10, -1⟩, .literal ⟨false, 1, -3⟩])) := by decide
theorem test_parse_config : parseLine ".config SAMPLE_RATE=8000 ENERGY_THRESHOLD=0.5".toList =
    some (some (.config ⟨false, 8000, 0⟩ ⟨false, 5, -1⟩)) := by decide
theorem test_parse_silence : parseLine "SILENCE 0x10".toList = some (some (.silence 16)) := by decide
/-- `.config` stands at the head of a program and nowhere else (R80; log entry 21). -/
theorem test_config_below_head : assembleLines 32 [.nop, .config ⟨false, 8000, 0⟩ ⟨false, 0, 0⟩] = none ∧
    loadProgram 32 [.nop] = none := by decide
theorem test_reset_line : assembleLines 32 [.reset, .beginN 4] =
    some [resetInput, { rst := false, cmd := 0x10000000000000004#66 }] := by decide
theorem test_empty_frame : assembleCommands 32 (.frame []) = none := by decide

/-! ## Witnesses: every statement's hypotheses are met, at the edges of their ranges -/

theorem witness_DecodeEncodeRoundTrip :
    (Instr.beginFrame 0xFFFFFFFF#64).wellFormed 32 = true ∧ (Instr.beginRsvbits 0x100000000#64).wellFormed 32 = true ∧
    (Instr.beginFrame 1#64).wellFormed 1 = true ∧ (Instr.beginFrame 0#64).wellFormed 64 = true ∧
    (Instr.nop 0#64).wellFormed 32 = true ∧ (Instr.sample one).wellFormed 1 = true ∧
    (Instr.rsvd 0#64).wellFormed 64 = true := by decide
theorem witness_EncodeDecodeIdentity : lenWLegal 1 = true ∧ lenWLegal 64 = true := by decide
theorem witness_StatusPortShowsState :
    (State.reset.mode = .idle ∧ State.reset.fcode = 0#3) ∧ ((accState 4 0).mode = .acc ∧ (accState 4 0).fcode = 0#3) ∧
    ((faultState .sampleNonfinite).mode = .fault ∧
      (faultState .sampleNonfinite).fcode = faultBits .sampleNonfinite) := by decide
theorem witness_AssembledBeginWord :
    lenWLegal 32 = true ∧ 2 ^ 32 - 1 < 2 ^ 32 ∧ 2 ^ 32 ≤ 2 ^ 32 := by decide
theorem witness_StepIsTotal : State.reset.port = [] := by decide
theorem witness_StepRunsDecodedCommand :
    (Instr.beginFrame 4#64).wellFormed State.reset.cfg.lenW = true ∧
    (given State.reset false 0x10000000000000004#66).port =
      { rst := false, cmd := encode (.beginFrame 4#64) } :: [] := by decide
theorem witness_ResetStepLeavesResetState :
    (given (accState 4 2) true 0#66).port = { rst := true, cmd := 0#66 } :: [] := by decide
theorem witness_BeginStartsFrame :
    State.reset.mode = .idle ∧ ((1#64).toNat < 2 ^ State.reset.cfg.lenW ∧ (1#64).toNat ≠ 0) ∧
    ((0xFFFFFFFF#64).toNat < 2 ^ State.reset.cfg.lenW ∧ (0xFFFFFFFF#64).toNat ≠ 0) := by decide
/-- Each branch: in a frame; reserved bits set; a length of 0; a legal length. -/
theorem witness_BeginTestsInOrder :
    (accState 4 0).mode = .acc ∧ (accState 4 0).mode ≠ .fault ∧ State.reset.mode ≠ .fault ∧
    2 ^ State.reset.cfg.lenW ≤ (0x100000000#64).toNat ∧ (0#64).toNat = 0 ∧
    (0xFFFFFFFF#64).toNat < 2 ^ State.reset.cfg.lenW := by decide
theorem witness_BeginRsvbitsFaultsInIdle :
    State.reset.mode = .idle ∧ 2 ^ State.reset.cfg.lenW ≤ (0x100000000#64).toNat := by decide
theorem witness_SampleAdvancesFrame :
    (accState 4 2).mode = .acc ∧ F64.isFinite minusZero = true ∧ (accState 4 2).idx + 1 < (accState 4 2).len := by decide
theorem witness_LastSampleCompletesFrame :
    (accState 4 3).mode = .acc ∧ F64.isFinite one = true ∧ (accState 4 3).idx + 1 = (accState 4 3).len ∧
    (accState 4 3).fcode = 0#3 ∧ (accState 1 0).idx + 1 = (accState 1 0).len := by decide
theorem witness_LastSampleCompletesFrame_energies :
    ∃ E : Bank F64, ∀ k : Fin 8, E.get k =
      (cellStep Num.f64 (coeff Num.f64 (accState 1 0).cfg k) (F64.mul one (win Num.f64 0 1))
        ((accState 1 0).cells.get k)).en :=
  ⟨Bank.gen fun k => (cellStep Num.f64 (coeff Num.f64 (accState 1 0).cfg k) (F64.mul one (win Num.f64 0 1))
    ((accState 1 0).cells.get k)).en, Bank.get_gen _⟩
theorem witness_SampleFaultsInOrder :
    State.reset.mode = .idle ∧ (accState 4 3).mode = .acc ∧ F64.isFinite posInf = false ∧ F64.isFinite aNaN = false := by
  decide
theorem witness_RsvdFaults : State.reset.mode ≠ .fault ∧ (accState 4 0).mode ≠ .fault ∧
    exec (.rsvd 0#64) (accState 4 0) = .next { accState 4 0 with mode := .fault, fcode := 1#3 } :=
  ⟨by decide, by decide, eq_next_of_isNext (by decide)⟩
theorem witness_FaultIgnoresCommands : (faultState .illegalCmd).mode = .fault := by decide
/-- A step out of `FAULT`, by reset, and one that stays there. -/
theorem witness_OnlyResetLeavesFault :
    (given (faultState .lenZero) true 0#66).mode = .fault ∧
    step (given (faultState .lenZero) true 0#66) = .next State.reset ∧
    step (given (faultState .lenZero) false 0x10000000000000004#66) = .next (faultState .lenZero) :=
  ⟨rfl, eq_next_of_isNext (by decide), eq_next_of_isNext (by decide)⟩
theorem witness_FaultEntryIsPrecise :
    State.reset.mode ≠ .fault ∧ exec (.sample one) State.reset = .next (faultState .sampleOutsideFrame) ∧
    (faultState .sampleOutsideFrame).mode = .fault :=
  ⟨by decide, eq_next_of_isNext (by decide), rfl⟩
theorem witness_ModeTransitions :
    step (given State.reset false 0x10000000000000004#66) = .next (accState 4 0) ∧
    (given State.reset false 0x10000000000000004#66).nextInput.rst = false ∧
    step (given (accState 4 1) true 0#66) = .next State.reset ∧
    step (given (accState 4 1) false 0#66) = .next (accState 4 1) ∧
    step (given (faultState .lenZero) false 0#66) = .next (faultState .lenZero) :=
  ⟨eq_next_of_isNext (by decide), rfl, eq_next_of_isNext (by decide), eq_next_of_isNext (by decide),
    eq_next_of_isNext (by decide)⟩
theorem witness_ResultOnlyAtCompletion :
    ∃ t : State, step (given (accState 1 0) false 0x23FF0000000000000#66) = .next t ∧ t.result ≠ none :=
  ⟨_, rfl, by simp [State.commit, Block.unlessFaulted, Block.sample, Block.complete, accState, given,
    State.takeInput, Num.f64, Num.f64With, sampleOperand, dataField, State.nextInput, Block.fbSample,
    F64.isFinite, F64.mag, F64.infMag]⟩
theorem witness_FrameOfNopRsvdRsvbits :
    (Instr.beginRsvbits 0x100000000#64).wellFormed (accState 4 1).cfg.lenW = true ∧
    exec (.beginRsvbits 0x100000000#64) (accState 4 1) =
      .next { accState 4 1 with mode := .fault, fcode := 3#3 } ∧
    exec (.nop 1#64) (accState 4 1) = .next (accState 4 1) :=
  ⟨by decide, eq_next_of_isNext (by decide), eq_next_of_isNext (by decide)⟩
theorem witness_FrameOfBegin :
    exec (.beginFrame 4#64) State.reset = .next (accState 4 0) ∧
    exec (.beginFrame 0#64) State.reset = .next (faultState .lenZero) :=
  ⟨eq_next_of_isNext (by decide), eq_next_of_isNext (by decide)⟩
theorem witness_FrameOfSample :
    exec (.sample one) State.reset = .next (faultState .sampleOutsideFrame) ∧
    (∃ t : State, exec (.sample one) (accState 4 2) = .next t) ∧
    ∃ t : State, exec (.sample one) (accState 4 3) = .next t :=
  ⟨eq_next_of_isNext (by decide), ⟨_, rfl⟩, ⟨_, rfl⟩⟩
theorem witness_ConfigurationIsImmutable :
    step (given idleState true 0#66) = .next idleState := eq_next_of_isNext (by decide)

/-- The invariant, of a state at the start of a frame, of an idle one of another configuration, and of a faulted one. -/
theorem witness_StepKeepsInvariant :
    (given (accState 4 0) false 0x23FF0000000000000#66).Inv ∧ idleState.Inv ∧ (faultState .illegalCmd).Inv := by
  refine ⟨⟨?_, by decide⟩, ⟨?_, by decide⟩, ⟨?_, by decide⟩⟩
  · constructor <;> first | decide | exact fun h => absurd h (by decide)
  · constructor <;> first | decide | exact fun h => absurd h (by decide)
  · constructor <;> first | decide | exact fun _ => ⟨.illegalCmd, rfl⟩
theorem witness_InvariantAtReset : State.construct idleState.cfg = some idleState := by decide
theorem witness_IdleIsTheResetState : idleState.Inv ∧ idleState.mode = .idle :=
  ⟨witness_StepKeepsInvariant.2.1, rfl⟩
theorem witness_CoefficientTable :
    ({ Cfg.default with energyThreshold := half } : Cfg F64).sampleRate = Cfg.default.sampleRate := rfl
/-- The clauses of `ConstructionChecksParameters` at the edges: the least positive rate, and no rate, no width. -/
theorem witness_ConstructionChecksParameters :
    (State.construct { Cfg.default with sampleRate := 1#64, lenW := 64 }).isSome = true ∧
    State.construct { Cfg.default with sampleRate := minusZero } = none ∧
    State.construct { Cfg.default with sampleRate := posInf } = none ∧
    State.construct { Cfg.default with energyThreshold := aNaN } = none ∧
    State.construct { Cfg.default with lenW := 0 } = none ∧ State.construct { Cfg.default with lenW := 65 } = none := by
  decide
theorem witness_CellUpdate : ∃ (c y p t t' e : F64) (n : Nat) (cell : Cell F64),
    c = coeff numOne Cfg.default 0 ∧ cell = (bankReset numOne).get 0 ∧
    y = numOne.sub (numOne.add one (numOne.mul c cell.s1)) cell.s2 ∧
    p = numOne.sub (numOne.add (numOne.mul cell.s2 cell.s2) (numOne.mul y y)) (numOne.mul (numOne.mul c y) cell.s2) ∧
    t = numOne.add cell.tp (numOne.mul one one) ∧ t' = (if numOne.isZero t = true then numOne.one else t) ∧
    n = cell.cnt + 1 ∧ e = numOne.div (numOne.div p t') (numOne.ofNat n) :=
  ⟨_, _, _, _, _, _, _, _, rfl, rfl, rfl, rfl, rfl, rfl, rfl, rfl⟩
theorem witness_ClampPreventsZeroDivisor :
    F64.isZero (F64.add (Cell.reset (0#64 : F64)).tp (F64.mul half half)) = false := evaluated.2.2.2.2.2.2.2.2.2.2.1

theorem witness_NaNStaysInCell :
    F64.isNaN ({ Cell.reset (0#64 : F64) with s1 := aNaN }).s1 = true ∧
    F64.isNaN ({ Cell.reset (0#64 : F64) with s2 := aNaN }).s2 = true := by decide
theorem witness_TotalPowerNeverNaN :
    F64.isNaN posInf = false ∧ F64.isNaN (Cell.reset (0#64 : F64)).tp = false ∧
    F64.sign (Cell.reset (0#64 : F64)).tp = false := by decide
/-- `x = 2^-537`, the least whose square is not 0. -/
theorem witness_FirstSampleF64 :
    F64.isFinite two = true ∧ F64.isFinite 0x1E60000000000000#64 = true ∧
    F64.isFinite (F64.mul two 0x1E60000000000000#64) = true ∧
    F64.isFinite (F64.mul 0x1E60000000000000#64 0x1E60000000000000#64) = true ∧
    F64.isZero (F64.mul 0x1E60000000000000#64 0x1E60000000000000#64) = false := evaluated.2.2.2.2.2.2.2.2.2.2.2.1

theorem witness_ScalingKeepsEnergies : (2 : ℝ) ≠ 0 ∧ (1 : ℝ) ≠ 0 := by norm_num
theorem witness_ScalingKeepsSymbol :
    (-1 : ℝ) ≠ 0 ∧ ({ sampleRate := 44100, energyThreshold := 0, lenW := 32 } : Cfg ℝ).energyThreshold ≤ 0 := by norm_num
theorem witness_ArithmeticRoundsToNearest :
    F64.isFinite one = true ∧ F64.isFinite 0x4008000000000000#64 = true ∧ F64.isZero 0x4008000000000000#64 = false ∧
    F64.isFinite maxFinite = true ∧ F64.isFinite 0x7C90000000000000#64 = true ∧
    F64.isFinite 0x7C8FFFFFFFFFFFFF#64 = true := by decide
/-- Both clauses of `F64.IsRounded`, on the two sides of its bound: an exact sum just below it, and one equal to it. -/
theorem witness_ArithmeticRoundsToNearest_bound :
    |F64.toRat maxFinite + F64.toRat 0x7C8FFFFFFFFFFFFF#64| < 2 ^ 1024 - 2 ^ 970 ∧
    2 ^ 1024 - 2 ^ 970 ≤ |F64.toRat maxFinite + F64.toRat 0x7C90000000000000#64| :=
  ⟨evaluated.2.2.2.2.2.2.2.2.2.2.2.2.2.2.2.1, evaluated.2.2.2.2.2.2.2.2.2.2.2.2.2.2.2.2 ▸ le_abs_self _⟩
/-- Two finite operands, a finite one beside the infinities, and a NaN on either side. -/
theorem witness_ComparisonsAreIEEE :
    F64.isFinite minusZero = true ∧ F64.isFinite maxFinite = true ∧ F64.isNaN aNaN = true ∧
    F64.isNaN 0xFFF0000000000001#64 = true := by decide
theorem witness_SmallCountsAreExact : 2 ^ 53 - 1 < 2 ^ 53 := by decide
theorem witness_WindowFormulaF64 : ∃ c1 c2 : F64,
    c1 = (fun _ => one) (F64.div (F64.mul 0x401921FB54442D18#64 (F64.ofNat 0)) (F64.ofNat 1)) ∧
    c2 = (fun _ => one) (F64.div (F64.mul 0x402921FB54442D18#64 (F64.ofNat 0)) (F64.ofNat 1)) := ⟨_, _, rfl, rfl⟩
theorem witness_FirstWindowWeightF64 : CosZero (fun _ => one) ∧ 0 < 1 := ⟨rfl, by decide⟩
theorem witness_RealWindowValues : 0 < 1 := by decide
/-- The first index of the shortest frame, and an index above 0. -/
theorem witness_RealWindowSymmetryAndBounds : 0 < 1 ∧ 1 < 2 ∧ 0 < 1 := by decide
/-- Both clauses: a bank with a selectable position, and one without. -/
theorem witness_GroupSelClosedForm :
    (∃ Q : Fin 4 → Prop, (∀ j, Q j ↔ F64.gt ((Bank.gen fun _ => half).get (Group.low.cell j)) 0#64 = true ∧
      F64.ge ((Bank.gen fun _ => half).get (Group.low.cell j)) half = true) ∧ Q 0) ∧
    (∃ Q : Fin 4 → Prop, (∀ j, Q j ↔ F64.gt ((Bank.gen fun _ => minusZero).get (Group.low.cell j)) 0#64 = true ∧
      F64.ge ((Bank.gen fun _ => minusZero).get (Group.low.cell j)) half = true) ∧ ∀ j, ¬ Q j) ∧
    ∃ Q : Fin 4 → Prop, ∀ j, Q j ↔ (0 : ℝ) < (Bank.gen fun _ => (1 : ℝ)).get (Group.high.cell j) ∧
      (1 : ℝ) ≤ (Bank.gen fun _ => (1 : ℝ)).get (Group.high.cell j) :=
  ⟨⟨_, fun _ => Iff.rfl, by decide⟩, ⟨_, fun _ => Iff.rfl, by decide⟩, ⟨_, fun _ => Iff.rfl⟩⟩
theorem witness_RaisingThresholdIsConservative : F64.ge one half = true ∧ F64.ge half half = true ∧ (1 : ℝ) ≤ 1 :=
  ⟨by decide, by decide, le_rfl⟩
theorem witness_NonpositiveThresholdAlwaysDetects :
    F64.ge 0#64 0#64 = true ∧ F64.ge 0#64 minusOne = true ∧
    F64.gt ((Bank.gen fun _ => (1#64 : F64)).get (Group.low.cell 3)) 0#64 = true ∧
    F64.gt ((Bank.gen fun _ => (1#64 : F64)).get (Group.high.cell 3)) 0#64 = true := by decide
/-- `NOP; BEGIN 1; NOP; SAMPLE 1.0` expresses `FRAME 1.0`. -/
theorem witness_FrameIsProcessBuffer :
    idleState.mode = .idle ∧ (∀ x ∈ [one], F64.isFinite x = true) ∧
    frameCommands idleState.cfg.lenW [one] =
      some (nonNops [.nop 9#64, .beginFrame 1#64, .nop 0#64, .sample one]) ∧
    ({ idleState with port := present [.nop 9#64, .beginFrame 1#64, .nop 0#64, .sample one] } : State).port =
      present [.nop 9#64, .beginFrame 1#64, .nop 0#64, .sample one] ++ [] :=
  ⟨rfl, List.forall_mem_singleton.2 (by decide), by decide, rfl⟩
theorem witness_FrameIsProcessBuffer_inv :
    ({ idleState with port := present [.nop 9#64, .beginFrame 1#64, .nop 0#64, .sample one] } : State).Inv :=
  ⟨witness_IdleIsTheResetState.1.block, by decide⟩
theorem witness_AllZeroFrameF64 :
    (∀ k, F64.isFinite (coeff numOne Cfg.default k) = true) ∧
    (∀ i, i < 2 → F64.isFinite (win numOne i 2) = true) ∧ ([0#64, minusZero] : List F64) ≠ [] ∧
    ∀ x ∈ ([0#64, minusZero] : List F64), F64.isZero x = true :=
  ⟨evaluated.2.2.2.2.2.2.2.2.2.2.2.2.1, evaluated.2.2.2.2.2.2.2.2.2.2.2.2.2.1, by decide,
    List.forall_mem_cons.2 ⟨by decide, List.forall_mem_singleton.2 (by decide)⟩⟩

/-- The rationals, with a cosine that is 1 everywhere. -/
def numRat : Num ℚ where
  zero := 0
  one := 1
  two := 2
  four := 4
  ofNat := fun n => (n : ℚ)
  add := fun a b => a + b
  sub := fun a b => a - b
  mul := fun a b => a * b
  div := fun a b => a / b
  cos := fun _ => 1
  pi := 3
  lit := fun d => if d.neg then - (d.mant : ℚ) * 10 ^ d.exp else (d.mant : ℚ) * 10 ^ d.exp
  gt := fun a b => decide (a > b)
  ge := fun a b => decide (a ≥ b)
  isZero := fun a => decide (a = 0)
  isFinite := fun _ => true

theorem witness_AllZeroFrameAnyNum :
    NumZeroLaws numRat ∧ ([0] : List ℚ) ≠ [] ∧ ∀ x ∈ ([0] : List ℚ), numRat.isZero x = true := by
  refine ⟨?_, by decide, by decide⟩
  constructor <;> simp only [numRat, decide_eq_true_eq, decide_eq_false_iff_not]
  · decide
  · intro n; positivity
  · rintro a b rfl; exact zero_mul b
  · rintro a b rfl; exact mul_zero a
  · rintro a b rfl rfl; exact add_zero 0
  · rintro a b rfl rfl; exact sub_zero 0
  · rintro a b rfl _; exact zero_div b
  · rintro a b rfl rfl; exact lt_irrefl 0

theorem witness_ThresholdMonotoneOverFrames : F64.ge half Cfg.default.energyThreshold = true := by decide
theorem witness_UnfinishedFrameWaits :
    (accState 4 2).mode = .acc ∧ (accState 4 2).port = [] ∧ (accState 4 2).result = none := by decide
theorem witness_RunForgetsThePast : (faultState .lenZero).cfg = (accState 4 2).cfg := by decide

end Sys2Proof.Tests
end

section
/-! SUPPORT. The family `10_state.md`: the status port and its packed word (R32, R78), and the configuration, which no
step changes (R36). -/

namespace Sys2Proof.Machine

/-! ## The status port -/

section port
variable {α : Type} {b : Block α}

@[simp] theorem Block.busy_iff : b.busy = true ↔ b.mode = .acc := decide_eq_true_iff

@[simp] theorem Block.faulted_iff : b.faulted = true ↔ b.mode = .fault := decide_eq_true_iff

@[simp] theorem Block.faultCode_eq : b.faultCode = b.fcode := rfl

@[simp] theorem Block.energyPort_eq (k : Fin 8) : b.energyPort k = (b.cells.get k).en := rfl

/-- R78's word with `busy` and `fault` at bits 4 and 3 above the three bits of the code, read as a sum. -/
theorem statusWord_eq_add (busy fault : Bool) (code : BitVec 3) :
    BitVec.ofBool busy ++ (BitVec.ofBool fault ++ code) =
      (if busy then 0x10#5 else 0#5) + (if fault then 0x08#5 else 0#5) + code.setWidth 5 := by
  revert busy fault code; decide

/-- The status word in terms of the state: the mode contributes 0x10 or 0x08, `fcode` the low bits. -/
theorem Block.status_eq :
    b.status = (if b.mode = .acc then 0x10#5 else 0#5) + (if b.mode = .fault then 0x08#5 else 0#5) +
      b.fcode.setWidth 5 := by
  calc b.status
      = (if b.busy then 0x10#5 else 0#5) + (if b.faulted then 0x08#5 else 0#5) + b.faultCode.setWidth 5 :=
        statusWord_eq_add _ _ _
    _ = _ := by simp

end port

/-! ## The configuration -/

@[simp] theorem Block.complete_cfg {α : Type} (N : Num α) (b : Block α) : (b.complete N).1.cfg = b.cfg := rfl

/-- In every number system a step leaves the configuration, whatever `rst` and the command (R36): each of its cases,
from the reset to the last sample of a frame, writes other fields only. -/
@[simp] theorem Block.step_cfg {α : Type} (N : Num α) (b : Block α) (rst : Bool) (c : Command α) :
    (b.step N rst c).1.cfg = b.cfg := by
  rcases b.step_cases N rst c with
    ⟨_, reset⟩ | ⟨_, _, ignored⟩ | ⟨_, _, _, faults⟩ | ⟨_, _, _, _, _, _, begins⟩ |
    ⟨_, _, _, _, _, _, advances⟩ | ⟨_, _, _, _, _, _, completes⟩
  · simp [reset]
  · simp [ignored]
  · simp [faults]
  · simp [begins]
  · simp [advances]
  · simp [completes]

theorem step_cfg {s t : State} (h : step s = .next t) : t.cfg = s.cfg := by
  obtain rfl := (step_next_iff s t).1 h
  simp

/-! ## The obligations -/

/-- Settles O29: the step of the block keeps `cfg` in each of its cases, and `COEFF` is a function of `cfg`. -/
theorem configurationIsImmutable : Obligations.ConfigurationIsImmutable := by
  intro s t h
  have hcfg : t.cfg = s.cfg := step_cfg h
  exact ⟨hcfg, fun k => by rw [hcfg]⟩

/-- Settles O6: the ports are read off the state, and the packed word off the mode and `fcode`. -/
theorem statusPortShowsState : Obligations.StatusPortShowsState := by
  intro s
  refine ⟨Block.busy_iff, Block.faulted_iff, Block.faultCode_eq, Block.energyPort_eq, ?idle, ?acc, ?fault⟩
  case idle => intro hm hf; simp [Block.status_eq, hm, hf]
  case acc => intro hm hf; simp [Block.status_eq, hm, hf]
  case fault => intro c hm hf; simp [Block.status_eq, hm, hf]

end Sys2Proof.Machine
end

section
/-! SUPPORT. The family `40_filter_bank.md`: `FB.SAMPLE` on one cell (R102, R103, R106). -/

namespace Sys2Proof.Machine

/-! ## The fields of a cell after `FB.SAMPLE` -/

section cell
variable {α : Type} (N : Num α) (c x : α) (cell : Cell α)

/-- Lines 3 and 4 of R102, with the clamp's test as a proposition: exactly a zero sum is replaced by 1 (R103). -/
theorem cellTotalPower_eq_ite :
    cellTotalPower N x cell =
      if N.isZero (N.add cell.tp (N.mul x x)) = true then N.one else N.add cell.tp (N.mul x x) :=
  cond_eq_ite _ _ _

/-- Line 7 of R102: the five fields are written together, each from the cell before the step (R106). -/
theorem cellStep_eq_mk :
    cellStep N c x cell =
      { s1 := cellOutput N c x cell
        s2 := cell.s1
        tp := cellTotalPower N x cell
        cnt := cell.cnt + 1
        en := N.div (N.div (cellPower N c (cellOutput N c x cell) cell) (cellTotalPower N x cell))
          (N.ofNat (cell.cnt + 1)) } := rfl

end cell

/-! ## The obligation -/

/-- Settles O35: `FB.SAMPLE` acts on cell `k` alone, lines 1 and 2 are `cellOutput` and `cellPower` as they stand, and
lines 3 and 4 are `cellTotalPower`. -/
theorem cellUpdate : Obligations.CellUpdate := by
  rintro α N cfg x cells k c y p t t' e n cell rfl rfl rfl rfl rfl rfl rfl rfl
  rw [bankStep_get, cellStep_eq_mk, cellTotalPower_eq_ite, cellOutput, cellPower]

end Sys2Proof.Machine
end

section
/-! SUPPORT. The family `41_window.md`: the window's constants under `F64` (R131), and the weight and the windowed sample
with them (R130, R134). -/

namespace Sys2Proof

/-! ## The roundings behind the constants of R131, one each, which the kernel computes -/

theorem F64.ofDecimal_windowA0 : F64.ofDecimal false 426591 (-6) = 0x3FDB4D44567125DD#64 := by decide +kernel

theorem F64.ofDecimal_windowA1 : F64.ofDecimal false 496561 (-6) = 0x3FDFC7A7C9DE0503#64 := by decide +kernel

theorem F64.ofDecimal_windowA2 : F64.ofDecimal false 76849 (-6) = 0x3FB3AC6045BAF534#64 := by decide +kernel

/-- Doubling `PI` adds 1 to its exponent field. -/
theorem F64.two_mul_pi : F64.mul 0x4000000000000000#64 0x400921FB54442D18#64 = 0x401921FB54442D18#64 := by
  decide +kernel

/-- Doubling `PI` twice adds 2 to its exponent field. -/
theorem F64.four_mul_pi : F64.mul 0x4010000000000000#64 0x400921FB54442D18#64 = 0x402921FB54442D18#64 := by
  decide +kernel

end Sys2Proof

namespace Sys2Proof.Machine

section f64
variable (cos : F64 → F64)

/-! ## The constants under `F64` -/

theorem Num.f64With_lit_windowA0 : (Num.f64With cos).lit windowA0 = 0x3FDB4D44567125DD#64 := by
  rw [Num.f64With_lit, windowA0, F64.ofDecimal_windowA0]

theorem Num.f64With_lit_windowA1 : (Num.f64With cos).lit windowA1 = 0x3FDFC7A7C9DE0503#64 := by
  rw [Num.f64With_lit, windowA1, F64.ofDecimal_windowA1]

theorem Num.f64With_lit_windowA2 : (Num.f64With cos).lit windowA2 = 0x3FB3AC6045BAF534#64 := by
  rw [Num.f64With_lit, windowA2, F64.ofDecimal_windowA2]

theorem Num.f64With_two_mul_pi :
    (Num.f64With cos).mul (Num.f64With cos).two (Num.f64With cos).pi = 0x401921FB54442D18#64 := by
  rw [Num.f64With_mul, Num.f64With_two, Num.f64With_pi, F64.two_mul_pi]

theorem Num.f64With_four_mul_pi :
    (Num.f64With cos).mul (Num.f64With cos).four (Num.f64With cos).pi = 0x402921FB54442D18#64 := by
  rw [Num.f64With_mul, Num.f64With_four, Num.f64With_pi, F64.four_mul_pi]

/-! ## The weight -/

/-- `WIN(i, N)` of R130 under `F64`, with the constants of R131. -/
theorem win_f64With (i n : Nat) :
    win (Num.f64With cos) i n =
      F64.add
        (F64.sub 0x3FDB4D44567125DD#64 (F64.mul 0x3FDFC7A7C9DE0503#64
          (cos (F64.div (F64.mul 0x401921FB54442D18#64 (F64.ofNat i)) (F64.ofNat n)))))
        (F64.mul 0x3FB3AC6045BAF534#64
          (cos (F64.div (F64.mul 0x402921FB54442D18#64 (F64.ofNat i)) (F64.ofNat n)))) := by
  rw [win, Num.f64With_two_mul_pi, Num.f64With_four_mul_pi, Num.f64With_lit_windowA0, Num.f64With_lit_windowA1,
    Num.f64With_lit_windowA2, Num.f64With_ofNat, Num.f64With_add, Num.f64With_sub, Num.f64With_mul, Num.f64With_div,
    Num.f64With_cos]

end f64

/-! ## The obligation -/

/-- Settles O46: the constants are each one rounding, and the windowed sample is the sample times `WIN(i, N)` with those
constants in it. -/
theorem windowFormulaF64 : Obligations.WindowFormulaF64 := by
  refine ⟨?constants, ?formula⟩
  case constants =>
    rw [Num.f64_eq]
    exact ⟨Num.f64With_lit_windowA0 _, Num.f64With_lit_windowA1 _, Num.f64With_lit_windowA2 _,
      Num.f64With_two_mul_pi _, Num.f64With_four_mul_pi _⟩
  case formula =>
    rintro cos x _ _ i n rfl rfl
    rw [windowed, win_f64With, Num.f64With_mul]

end Sys2Proof.Machine
end

section
/-! SUPPORT. The family `43_decoder_commands.md`: what each command's step is in terms of the named operations (R161, R162,
R165), and the way out of `FAULT` (R166, R196). -/

namespace Sys2Proof.Machine

theorem Mode.eq_idle_iff (m : Mode) : m = .idle ↔ m ≠ .acc ∧ m ≠ .fault := by
  cases m <;> decide

/-- Without reserved bits the frame length is the whole payload (R73). -/
theorem frameLength_of_lt {lenW : Nat} {data : Payload} (h : data.toNat < 2 ^ lenW) :
    frameLength lenW data = data.toNat := Nat.mod_eq_of_lt h

/-! ## The step of the block, command by command -/

section block
variable {α : Type} (N : Num α) {b : Block α}

theorem Block.step_rst (c : Command α) : b.step N true c = (Block.resetState N.zero b.cfg, none) := rfl

theorem Block.step_of_fault (hm : b.mode = .fault) (c : Command α) : b.step N false c = b.unchanged := by
  simp [Block.step, hm]

/-- In `FAULT` as outside it: being ignored and doing nothing are the same (R161, R166). -/
theorem Block.step_nop : b.step N false .nop = b.unchanged := by
  simp [Block.step, Block.nop]

theorem Block.step_beginFrame (hm : b.mode ≠ .fault) (data : Payload) :
    b.step N false (.beginFrame data) = b.beginFrame N data := by
  simp [Block.step, hm]

theorem Block.step_rsvd (hm : b.mode ≠ .fault) : b.step N false .rsvd = b.raiseFault .illegalCmd := by
  simp [Block.step, Block.rsvd, hm]

end block

/-! ## Outputs taken by the state -/

theorem State.commit_unchanged (s : State) : s.commit s.toBlock.unchanged = { s with result := none } := rfl

theorem State.commit_raiseFault (s : State) (c : FaultCode) :
    s.commit (s.toBlock.raiseFault c) = { s with mode := .fault, fcode := faultBits c, result := none } := rfl

/-! ## The next state of a command -/

theorem exec_nop (s : State) (data : Payload) : exec (.nop data) s = .next { s with result := none } := by
  rw [exec_eq_step, commandOf, Block.step_nop, State.commit_unchanged]

theorem exec_rsvd {s : State} (hm : s.mode ≠ .fault) (data : Payload) :
    exec (.rsvd data) s = .next { s with mode := .fault, fcode := 1#3, result := none } := by
  rw [exec_eq_step, commandOf, Block.step_rsvd _ hm, State.commit_raiseFault, faultBits]

/-- Both rows of `op = 01` execute `BEGIN` (R162). -/
theorem exec_of_commandOf_eq_beginFrame {s : State} {i : Instr} {data : Payload} (hi : commandOf i = .beginFrame data)
    (hm : s.mode ≠ .fault) : exec i s = .next (s.commit (s.toBlock.beginFrame Num.f64 data)) := by
  rw [exec_eq_step, hi, Block.step_beginFrame _ hm]

/-! ## The obligations -/

/-- Settles O13: the step of `NOP` is `Block.unchanged` in every mode. -/
theorem nopChangesNothing : Obligations.NopChangesNothing :=
  fun s data => ⟨exec_nop s data, rfl⟩

/-- Settles O20: `RSVD` is fault entry with code 1, and the status word follows from the mode and `fcode`. -/
theorem rsvdFaults : Obligations.RsvdFaults := by
  intro s data hm
  refine ⟨exec_rsvd hm data, rfl, fun t ht => ?_⟩
  rw [exec_rsvd hm] at ht
  obtain rfl := Host.Outcome.next.inj ht
  simp [Block.status_eq]

/-- Settles O22: in `FAULT` a step is the reset state or the unchanged block, as `rst` says. -/
theorem onlyResetLeavesFault : Obligations.OnlyResetLeavesFault := by
  intro s t hm ht
  obtain rfl := (step_next_iff s t).1 ht
  cases hr : s.nextInput.rst with
  | true => simp [Block.step_rst]
  | false => simp [Block.step_of_fault _ hm, hm]

/-- Settles O15: the four cases of `BEGIN` are the four outcomes of the tests, once reserved bits and `N` are read as
`data` against `2 ^ LEN_W` and 0. -/
theorem beginTestsInOrder : Obligations.BeginTestsInOrder := by
  intro s data i hi hm
  have hword : encode i = 0b01#2 ++ data := by rcases hi with rfl | rfl <;> rfl
  have hcmd : commandOf i = .beginFrame data := by rcases hi with rfl | rfl <;> rfl
  refine ⟨hword, _, exec_of_commandOf_eq_beginFrame hcmd hm, ?_⟩
  rcases s.toBlock.beginFrame_cases Num.f64 data with
    ⟨hacc, faults⟩ | ⟨hacc, hres, faults⟩ | ⟨hacc, hres, hlen, faults⟩ | ⟨hacc, hres, hlen, begins⟩
  · rw [faults, State.commit_raiseFault]
    simp [hacc, faultBits]
  · have hlt : ¬ data.toNat < 2 ^ s.cfg.lenW := mt (reservedBits_eq_zero_iff _ _).2 hres
    rw [faults, State.commit_raiseFault]
    simp [hacc, hlt, Nat.not_lt.1 hlt, faultBits]
  · have hlt : data.toNat < 2 ^ s.cfg.lenW := (reservedBits_eq_zero_iff _ _).1 hres
    rw [frameLength_of_lt hlt] at hlen
    rw [faults, State.commit_raiseFault]
    simp [hacc, hlen, faultBits]
  · have hlt : data.toNat < 2 ^ s.cfg.lenW := (reservedBits_eq_zero_iff _ _).1 hres
    have hidle : s.mode = .idle := (Mode.eq_idle_iff _).2 ⟨hacc, hm⟩
    rw [frameLength_of_lt hlt] at hlen begins
    rw [begins]
    simp [hidle, hlt, Nat.not_le.2 hlt, hlen, State.commit, Block.fbReset, bankReset]

end Sys2Proof.Machine
end

section
/-! SUPPORT. The family `60_exceptions.md`: fault entry (R195), and the parameters for which construction yields an
instance (R201, R222). -/

namespace Sys2Proof.Machine

/-! ## Fault entry -/

/-- In every number system fault entry is the only way into `FAULT` (R167, R195): of a step's other cases, the ignored
command keeps the mode, and each of the rest leads to `IDLE` or `ACC`. -/
theorem Block.step_eq_raiseFault_of_enters {α : Type} (N : Num α) {b : Block α} {rst : Bool} {c : Command α}
    (hm : b.mode ≠ .fault) (henter : (b.step N rst c).1.mode = .fault) :
    ∃ f : FaultCode, b.step N rst c = b.raiseFault f := by
  rcases b.step_cases N rst c with
    ⟨_, reset⟩ | ⟨_, _, ignored⟩ | ⟨_, _, faults⟩ | ⟨_, _, _, _, _, _, begins⟩ |
    ⟨_, hacc, _, _, _, _, advances⟩ | ⟨_, _, _, _, _, _, completes⟩
  · simp [reset] at henter
  · simp [ignored, hm] at henter
  · exact faults
  · simp [begins] at henter
  · simp [advances, hacc] at henter
  · simp [completes, Block.complete_eq] at henter

/-! ## Construction -/

theorem lenWLegal_iff (lenW : Nat) : lenWLegal lenW = true ↔ 1 ≤ lenW ∧ lenW ≤ 64 := by
  simp [lenWLegal]

/-- The legal parameters of an instance under `NUM = F64` (R5, R6, R10). -/
theorem Cfg.legal_f64_iff (cfg : Cfg F64) :
    cfg.legal Num.f64 = true ↔
      F64.isFinite cfg.sampleRate = true ∧ F64.gt cfg.sampleRate 0#64 = true ∧
        F64.isFinite cfg.energyThreshold = true ∧ 1 ≤ cfg.lenW ∧ cfg.lenW ≤ 64 := by
  simp [Cfg.legal, lenWLegal_iff, and_assoc]

theorem State.construct_of_legal {cfg : Cfg F64} (h : cfg.legal Num.f64 = true) :
    State.construct cfg = some { toBlock := Block.resetState 0#64 cfg, result := none, port := [] } := by
  simp [State.construct, Block.construct, h]

theorem State.construct_of_not_legal {cfg : Cfg F64} (h : ¬ cfg.legal Num.f64 = true) : State.construct cfg = none := by
  simp [State.construct, Block.construct, h]

/-! ## The obligations -/

/-- Settles O23: a command that enters `FAULT` is fault entry with some code, and both outputs read what that wrote. -/
theorem faultEntryIsPrecise : Obligations.FaultEntryIsPrecise := by
  intro i s t hm hexec hfault
  obtain rfl := (exec_next_iff i s t).1 hexec
  obtain ⟨f, faults⟩ := Block.step_eq_raiseFault_of_enters Num.f64 hm hfault
  refine ⟨f, ?_, Block.faulted_iff.2 hfault, ?_⟩
  · rw [faults, State.commit_raiseFault]
  · simp [faults]

/-- Settles O12: legal parameters give the reset state, others no instance. -/
theorem constructionChecksParameters : Obligations.ConstructionChecksParameters := by
  intro cfg
  split
  case isTrue h => exact State.construct_of_legal (cfg.legal_f64_iff.2 h)
  case isFalse h => exact State.construct_of_not_legal (mt cfg.legal_f64_iff.1 h)

end Sys2Proof.Machine
end

section
/-! SUPPORT. The family `70_reset_and_hazards.md`: the step with `rst = 1` (R220). -/

namespace Sys2Proof.Machine

/-! ## The next input of the port -/

theorem State.nextInput_of_port_eq_cons {s : State} {p : PortInput} {rest : List PortInput} (h : s.port = p :: rest) :
    s.nextInput = p := by
  simp [State.nextInput, h]

/-! ## The reset step -/

/-- A presented reset leads to the reset state of the same configuration, and `cmd` plays no part (R160, R220). -/
theorem step_of_port_eq_rst {s : State} {cmd : CmdWord} {rest : List PortInput}
    (h : s.port = { rst := true, cmd := cmd } :: rest) :
    step s = .next { toBlock := Block.resetState 0#64 s.cfg, result := none, port := rest } := by
  rw [step_eq, State.nextInput_of_port_eq_cons h, Block.step_rst]
  simp [State.commit, State.takeInput, h]

/-! ## The obligation -/

/-- Settles O10: the reset step leads to `Block.resetState`, whose fields have the values R220 names. -/
theorem resetStepLeavesResetState : Obligations.ResetStepLeavesResetState := by
  intro s cmd rest h
  refine ⟨_, step_of_port_eq_rst h, rfl, fun k => ?_, rfl, rfl, rfl, rfl, rfl, rfl⟩
  simp

end Sys2Proof.Machine
end

section
/-! SUPPORT. The family `00_scope.md`: the arithmetic and the comparisons of `NUM = F64` are those of IEEE 754 (R7,
R113). -/

namespace Sys2Proof

/-! ## Values -/

theorem F64.scale_ne_zero : (F64.scale : ℚ) ≠ 0 := Nat.cast_ne_zero.2 F64.scale_pos.ne'

theorem F64.scale_eq : F64.scale = 2 ^ 1074 := by
  unfold F64.scale
  exact rfl

/-- A finite number is its count of units, with its sign. -/
theorem F64.toRat_eq (a : F64) :
    F64.toRat a = (if F64.sign a then -1 else 1) * ((F64.units a : ℚ) / F64.scale) := by
  rw [F64.toRat, F64.signedUnits]
  split <;> push_cast <;> ring

@[simp] theorem F64.toRat_neg (a : F64) : F64.toRat (F64.neg a) = -F64.toRat a := by
  have hunits : F64.units (F64.neg a) = F64.units a := by rw [F64.units_eq, F64.units_eq, F64.mag_neg]
  rw [F64.toRat_eq, F64.toRat_eq, F64.sign_neg, hunits]
  cases F64.sign a <;> simp

theorem F64.toRat_eq_zero_iff (a : F64) : F64.toRat a = 0 ↔ F64.isZero a = true := by
  rw [F64.toRat, div_eq_zero_iff, or_iff_left F64.scale_ne_zero, Int.cast_eq_zero, F64.signedUnits_eq_zero_iff]

/-! ## The operations round their exact result -/

/-- A zero of either sign is what 0 rounds to. -/
theorem F64.isRounded_zero (s : Bool) : F64.IsRounded 0 (F64.ofMag s 0) := by
  simpa [F64.round_zero] using F64.round_isRounded s 0 1 Nat.one_pos

/-- The sum of two finite numbers, which both `add` and `sub` compute. -/
theorem F64.addCore_isRounded (src : NanSource) {a b : F64} (ha : F64.isFinite a = true) (hb : F64.isFinite b = true) :
    F64.IsRounded (F64.toRat a + F64.toRat b) (F64.addCore src a b) := by
  have hsum : F64.toRat a + F64.toRat b = ((F64.signedUnits a + F64.signedUnits b : Int) : ℚ) / F64.scale := by
    rw [F64.toRat, F64.toRat, ← add_div, Int.cast_add]
  simp only [F64.addCore, F64.isInf_of_isFinite ha, F64.isInf_of_isFinite hb, Bool.false_eq_true, if_false, hsum]
  generalize F64.signedUnits a + F64.signedUnits b = t
  by_cases ht : t = 0
  · rw [if_pos ht, ht, Int.cast_zero, zero_div]
    exact F64.isRounded_zero _
  · have hvalue : (if decide (t < 0) then -1 else 1) * ((t.natAbs : ℚ) / (1 : Nat) / F64.scale) = t / F64.scale := by
      rw [Nat.cast_one, div_one, Nat.cast_natAbs, Int.cast_abs]
      by_cases hneg : t < 0
      · rw [if_pos (decide_eq_true hneg), abs_of_neg (Int.cast_lt_zero.2 hneg)]
        ring
      · rw [if_neg (by simpa using hneg), abs_of_nonneg (by exact_mod_cast not_lt.1 hneg), one_mul]
    rw [if_neg ht, ← hvalue]
    exact F64.round_isRounded _ _ _ Nat.one_pos

theorem F64.add_isRounded {a b : F64} (ha : F64.isFinite a = true) (hb : F64.isFinite b = true) :
    F64.IsRounded (F64.toRat a + F64.toRat b) (F64.add a b) := by
  rw [F64.add_of_not_isNaN (F64.isNaN_of_isFinite ha) (F64.isNaN_of_isFinite hb)]
  exact F64.addCore_isRounded .add ha hb

theorem F64.sub_isRounded {a b : F64} (ha : F64.isFinite a = true) (hb : F64.isFinite b = true) :
    F64.IsRounded (F64.toRat a - F64.toRat b) (F64.sub a b) := by
  rw [F64.sub_of_not_isNaN (F64.isNaN_of_isFinite ha) (F64.isNaN_of_isFinite hb), sub_eq_add_neg, ← F64.toRat_neg]
  exact F64.addCore_isRounded .sub ha ((F64.isFinite_neg b).trans hb)

/-- Signs multiply as `±1`. -/
theorem F64.signs_mul (s t : Bool) :
    (if s != t then -1 else 1 : ℚ) = (if s then -1 else 1) * (if t then -1 else 1) := by
  cases s <;> cases t <;> simp

theorem F64.mul_of_isFinite {a b : F64} (ha : F64.isFinite a = true) (hb : F64.isFinite b = true) :
    F64.mul a b = F64.round (F64.sign a != F64.sign b) (F64.units a * F64.units b) F64.scale := by
  simp only [F64.mul, F64.isNaN_of_isFinite ha, F64.isNaN_of_isFinite hb, F64.isInf_of_isFinite ha,
    F64.isInf_of_isFinite hb, Bool.or_self, Bool.false_eq_true, if_false]

theorem F64.mul_isRounded {a b : F64} (ha : F64.isFinite a = true) (hb : F64.isFinite b = true) :
    F64.IsRounded (F64.toRat a * F64.toRat b) (F64.mul a b) := by
  have hvalue : F64.toRat a * F64.toRat b = (if F64.sign a != F64.sign b then -1 else 1) *
      (((F64.units a * F64.units b : Nat) : ℚ) / F64.scale / F64.scale) := by
    rw [F64.toRat_eq, F64.toRat_eq, F64.signs_mul, Nat.cast_mul]
    ring
  rw [F64.mul_of_isFinite ha hb, hvalue]
  exact F64.round_isRounded _ _ _ F64.scale_pos

theorem F64.div_of_isFinite {a b : F64} (ha : F64.isFinite a = true) (hb : F64.isFinite b = true)
    (h0 : F64.isZero b = false) :
    F64.div a b = F64.round (F64.sign a != F64.sign b) (F64.units a * F64.scale) (F64.units b) := by
  simp only [F64.div, F64.isNaN_of_isFinite ha, F64.isNaN_of_isFinite hb, F64.isInf_of_isFinite ha,
    F64.isInf_of_isFinite hb, h0, Bool.or_self, Bool.false_eq_true, if_false]

theorem F64.units_pos {a : F64} (h0 : F64.isZero a = false) : 0 < F64.units a := by
  rw [Nat.pos_iff_ne_zero, Ne, F64.units_eq_zero_iff, ← F64.isZero_iff, h0]
  decide

theorem F64.div_isRounded {a b : F64} (ha : F64.isFinite a = true) (hb : F64.isFinite b = true)
    (h0 : F64.isZero b = false) : F64.IsRounded (F64.toRat a / F64.toRat b) (F64.div a b) := by
  have hscale := F64.scale_ne_zero
  have hunits : (F64.units b : ℚ) ≠ 0 := Nat.cast_ne_zero.2 (F64.units_pos h0).ne'
  have hvalue : F64.toRat a / F64.toRat b = (if F64.sign a != F64.sign b then -1 else 1) *
      (((F64.units a * F64.scale : Nat) : ℚ) / F64.units b / F64.scale) := by
    rw [F64.toRat_eq, F64.toRat_eq, F64.signs_mul, Nat.cast_mul]
    cases F64.sign a <;> cases F64.sign b <;> simp <;> field_simp
  rw [F64.div_of_isFinite ha hb h0, hvalue]
  exact F64.round_isRounded _ _ _ (F64.units_pos h0)

theorem F64.ofNat_isRounded (n : Nat) : F64.IsRounded n (F64.ofNat n) := by
  have h := F64.round_isRounded false (n * F64.scale) 1 Nat.one_pos
  rwa [if_neg Bool.false_ne_true, one_mul, Nat.cast_one, div_one, Nat.cast_mul,
    mul_div_cancel_right₀ _ F64.scale_ne_zero] at h

/-- A power of ten with the exponent split by its sign, as `ofDecimal` takes it. -/
theorem zpow_eq_pow_toNat_div {q : ℚ} (hq : q ≠ 0) (e : Int) : q ^ e = q ^ e.toNat / q ^ (-e).toNat := by
  rw [← zpow_natCast, ← zpow_natCast, ← zpow_sub₀ hq]
  congr 1
  omega

theorem F64.ofDecimal_isRounded (neg : Bool) (mant : Nat) (exp : Int) :
    F64.IsRounded ((if neg then -1 else 1) * (mant * (10 : ℚ) ^ exp)) (F64.ofDecimal neg mant exp) := by
  have hvalue : (mant : ℚ) * 10 ^ exp =
      ((mant * 10 ^ exp.toNat * F64.scale : Nat) : ℚ) / (10 ^ (-exp).toNat : Nat) / F64.scale := by
    rw [zpow_eq_pow_toNat_div (by norm_num), Nat.cast_mul, div_right_comm, mul_div_cancel_right₀ _ F64.scale_ne_zero]
    push_cast
    ring
  rw [hvalue]
  exact F64.round_isRounded _ _ _ (Nat.pow_pos (by decide))

/-! ## Small counts are exact -/

theorem F64.ofNat_zero : F64.ofNat 0 = 0#64 := by
  rw [F64.ofNat, Nat.zero_mul, F64.round_zero]
  rfl

/-- 44100 is the default sample rate's bit pattern (R5). -/
theorem F64.ofNat_44100 : F64.ofNat 44100 = Config.defaultSampleRate := by decide +kernel

/-- A count of units below `2^53` at the place of exponent `k` is that of a finite number. -/
theorem F64.exists_units_eq {q k : Nat} (hq : q < 2 ^ 53) (hk : k = 0 ∨ 2 ^ 52 ≤ q) (hk' : k < 2046) :
    ∃ c : F64, F64.isFinite c = true ∧ F64.sign c = false ∧ F64.units c = q * 2 ^ k := by
  have hlt : k * 2 ^ 52 + q < F64.infMag := by unfold F64.infMag; omega
  have hmag := F64.mag_ofMag false _ (hlt.trans (by decide))
  exact ⟨_, decide_eq_true (hmag.trans_lt hlt), F64.sign_ofMag _ _ (hlt.trans (by decide)),
    F64.units_of_mag _ k q hmag hq.le hk⟩

/-- A natural number below `2^53`, moved up until it fills the significand, is that of a finite number. -/
theorem F64.exists_toRat_eq {n : Nat} (hn : n < 2 ^ 53) : ∃ c : F64, F64.isFinite c = true ∧ F64.toRat c = n := by
  rcases Nat.eq_zero_or_pos n with rfl | hpos
  · exact ⟨0#64, by decide, by simp [F64.toRat_eq]⟩
  set j := Nat.log2 n with hj
  have hlog : j < 53 := (Nat.log2_lt hpos.ne').2 hn
  have hlow : 2 ^ j ≤ n := Nat.log2_self_le hpos.ne'
  have hhigh : n < 2 ^ (j + 1) := Nat.lt_log2_self
  have hpow : 2 ^ (52 - j) * 2 ^ (1022 + j) = F64.scale := by
    rw [← pow_add, F64.scale_eq, show 52 - j + (1022 + j) = 1074 by omega]
  obtain ⟨c, hfin, hsign, hunits⟩ := F64.exists_units_eq (q := n * 2 ^ (52 - j)) (k := 1022 + j)
    (calc n * 2 ^ (52 - j) < 2 ^ (j + 1) * 2 ^ (52 - j) := Nat.mul_lt_mul_of_pos_right hhigh (Nat.two_pow_pos _)
      _ = 2 ^ 53 := by rw [← pow_add]; congr 1; omega)
    (.inr (calc 2 ^ 52 = 2 ^ j * 2 ^ (52 - j) := by rw [← pow_add]; congr 1; omega
      _ ≤ n * 2 ^ (52 - j) := Nat.mul_le_mul_right _ hlow))
    (by omega)
  refine ⟨c, hfin, ?_⟩
  rw [F64.toRat_eq, hsign, hunits, Nat.mul_assoc, hpow, Nat.cast_mul, mul_div_cancel_right₀ _ F64.scale_ne_zero]
  simp

/-- Counts below `2^53` are far from the bound of overflow. -/
theorem F64.two_pow_53_lt_bound : (2 : ℚ) ^ 53 < 2 ^ 1024 - 2 ^ 970 := by
  have hpow : (1 : ℚ) ≤ 2 ^ 970 := one_le_pow₀ one_le_two
  rw [show (2 : ℚ) ^ 1024 = 2 ^ 54 * 2 ^ 970 by rw [← pow_add]]
  generalize (2 : ℚ) ^ 970 = y at *
  linarith

/-! ## The order -/

theorem F64.toRat_lt_iff {a b : F64} (ha : F64.isFinite a = true) (hb : F64.isFinite b = true) :
    F64.toRat a < F64.toRat b ↔ F64.key a < F64.key b := by
  have hscale : (0 : ℚ) < F64.scale := Nat.cast_pos.2 F64.scale_pos
  rw [F64.key_lt_iff ha hb, F64.toRat, F64.toRat, div_lt_div_iff_of_pos_right hscale, Int.cast_lt]

/-- `>` on numbers that are no NaN is the order of the keys, `>=` its non-strict form. -/
theorem F64.gt_iff (a b : F64) :
    F64.gt a b = true ↔ F64.isNaN a = false ∧ F64.isNaN b = false ∧ F64.key b < F64.key a := by
  simp [F64.gt, and_assoc]

theorem F64.ge_iff (a b : F64) :
    F64.ge a b = true ↔ F64.isNaN a = false ∧ F64.isNaN b = false ∧ F64.key b ≤ F64.key a := by
  simp [F64.ge, and_assoc]

theorem F64.gt_eq_false_iff {a b : F64} (ha : F64.isNaN a = false) (hb : F64.isNaN b = false) :
    F64.gt a b = false ↔ F64.key a ≤ F64.key b := by
  simp [F64.gt, ha, hb]

theorem F64.ge_eq_false_iff {a b : F64} (ha : F64.isNaN a = false) (hb : F64.isNaN b = false) :
    F64.ge a b = false ↔ F64.key a < F64.key b := by
  simp [F64.ge, ha, hb]

@[simp] theorem F64.isNaN_inf (s : Bool) : F64.isNaN (F64.inf s) = false := by cases s <;> decide

theorem F64.key_inf (s : Bool) : F64.key (F64.inf s) = if s then -(F64.infMag : Int) else F64.infMag := by
  cases s <;> decide

/-- The key of a finite number lies strictly between those of the infinities. -/
theorem F64.key_of_isFinite {a : F64} (ha : F64.isFinite a = true) :
    F64.key (F64.inf true) < F64.key a ∧ F64.key a < F64.key (F64.inf false) := by
  have hmag : F64.mag a < F64.infMag := of_decide_eq_true ha
  rw [F64.key_inf, F64.key_inf, F64.key]
  cases F64.sign a <;> simp <;> omega

end Sys2Proof

namespace Sys2Proof.Machine

/-! ## The obligations -/

/-- Settles O44: each operation is one `round` of its exact result, or a zero where the exact sum is 0. -/
theorem arithmeticRoundsToNearest : Obligations.ArithmeticRoundsToNearest :=
  ⟨fun _ _ ha hb =>
      ⟨F64.add_isRounded ha hb, F64.sub_isRounded ha hb, F64.mul_isRounded ha hb, F64.div_isRounded ha hb⟩,
    F64.ofNat_isRounded, F64.ofDecimal_isRounded⟩

/-- Settles O45: the count is a finite number's value, and so nothing is nearer to it than the count itself. -/
theorem smallCountsAreExact : Obligations.SmallCountsAreExact := by
  intro n hn
  obtain ⟨c, hc, hvalue⟩ := F64.exists_toRat_eq hn
  have hbound : |(n : ℚ)| < 2 ^ 1024 - 2 ^ 970 := by
    rw [Nat.abs_cast]
    calc (n : ℚ) < 2 ^ 53 := by exact_mod_cast hn
      _ < 2 ^ 1024 - 2 ^ 970 := F64.two_pow_53_lt_bound
  obtain ⟨hfin, hnearest⟩ := (F64.ofNat_isRounded n).1 hbound
  have hdist := (hnearest c hc).1
  rw [hvalue, sub_self, abs_zero] at hdist
  exact ⟨hfin, sub_eq_zero.1 (abs_nonpos_iff.1 hdist)⟩

/-- Settles O60: the keys order the finite numbers by value, between the keys of the two infinities. -/
theorem comparisonsAreIEEE : Obligations.ComparisonsAreIEEE := by
  refine ⟨fun a b ha hb => ?finite, fun a ha => ?infinity, by decide, fun a b h => ?nan, fun a => ?zero⟩
  case finite =>
    have hna := F64.isNaN_of_isFinite ha
    have hnb := F64.isNaN_of_isFinite hb
    constructor
    · simp [F64.gt_iff, hna, hnb, F64.toRat_lt_iff hb ha]
    · rw [← not_lt, F64.toRat_lt_iff ha hb]
      simp [F64.ge_iff, hna, hnb]
  case infinity =>
    have hna := F64.isNaN_of_isFinite ha
    obtain ⟨hlow, hhigh⟩ := F64.key_of_isFinite ha
    simp [F64.gt_iff, F64.ge_iff, F64.gt_eq_false_iff, F64.ge_eq_false_iff, hna, hlow, hhigh, hlow.le, hhigh.le]
  case nan => rcases h with h | h <;> simp [F64.gt, F64.ge, h]
  case zero =>
    rw [F64.toRat_eq_zero_iff]
    exact ⟨fun h => ⟨F64.isFinite_of_isZero h, h⟩, fun h => h.2⟩

end Sys2Proof.Machine
end

section
/-! SUPPORT. The family `30_encoding.md`: decoder and encoder are inverse (R70 to R75, R81), the first matching row
(R81), the result words (R76, R77) and the word of `BEGIN N` (R79). -/

namespace Sys2Proof

/-! ## The decoder, row by row -/

section rows
variable {lenW : Nat} {data : Payload}

@[simp] theorem decode_commandWord_nop : decode lenW (commandWord 0b00#2 data) = .nop data := by
  simp [decode]

theorem decode_commandWord_beginFrame (h : data.toNat < 2 ^ lenW) :
    decode lenW (commandWord 0b01#2 data) = .beginFrame data := by
  simp [decode, (reservedBits_eq_zero_iff _ _).2 h]

theorem decode_commandWord_beginRsvbits (h : 2 ^ lenW ≤ data.toNat) :
    decode lenW (commandWord 0b01#2 data) = .beginRsvbits data := by
  simp [decode, mt (reservedBits_eq_zero_iff _ _).1 (Nat.not_lt.2 h)]

@[simp] theorem decode_commandWord_sample : decode lenW (commandWord 0b10#2 data) = .sample data := by
  simp [decode]

@[simp] theorem decode_commandWord_rsvd : decode lenW (commandWord 0b11#2 data) = .rsvd data := by
  simp [decode]

end rows

/-- The condition on the payload in a row of `op = 01`: the reserved bits are zero in `BEGIN` and not in
`BEGIN.RSVBITS` (R73, R75 (b)).  The other rows have none (R72, R74). -/
def Instr.PayloadFits (lenW : Nat) : Instr → Prop
  | .beginFrame data => data.toNat < 2 ^ lenW
  | .beginRsvbits data => 2 ^ lenW ≤ data.toNat
  | .nop _ | .sample _ | .rsvd _ => True

theorem Instr.wellFormed_iff (lenW : Nat) (i : Instr) :
    i.wellFormed lenW = true ↔ lenWLegal lenW = true ∧ i.PayloadFits lenW := by
  cases i <;> simp [Instr.wellFormed, Instr.PayloadFits]

theorem decode_encode {lenW : Nat} {i : Instr} (h : i.PayloadFits lenW) : decode lenW (encode i) = i := by
  cases i with
  | nop data => exact decode_commandWord_nop
  | beginFrame data => exact decode_commandWord_beginFrame h
  | beginRsvbits data => exact decode_commandWord_beginRsvbits h
  | sample x => exact decode_commandWord_sample
  | rsvd data => exact decode_commandWord_rsvd

/-- At every width every command word is the word of a command whose payload fits. -/
theorem exists_encode_eq (lenW : Nat) (w : CmdWord) : ∃ i : Instr, i.PayloadFits lenW ∧ encode i = w := by
  rw [← commandWord_fields w]
  generalize dataField w = data
  rcases op_cases (opField w) with hop | hop | hop | hop <;> rw [hop]
  · exact ⟨.nop data, trivial, rfl⟩
  · rcases Nat.lt_or_ge data.toNat (2 ^ lenW) with h | h
    · exact ⟨.beginFrame data, h, rfl⟩
    · exact ⟨.beginRsvbits data, h, rfl⟩
  · exact ⟨.sample data, trivial, rfl⟩
  · exact ⟨.rsvd data, trivial, rfl⟩

theorem payloadFits_decode (lenW : Nat) (w : CmdWord) : (decode lenW w).PayloadFits lenW := by
  obtain ⟨i, hi, rfl⟩ := exists_encode_eq lenW w
  rwa [decode_encode hi]

@[simp] theorem encode_decode (lenW : Nat) (w : CmdWord) : encode (decode lenW w) = w := by
  obtain ⟨i, hi, rfl⟩ := exists_encode_eq lenW w
  rw [decode_encode hi]

/-- A command word as a number: `op` above the 64 bits of `data` (R70). -/
theorem toNat_commandWord (op : BitVec 2) (data : Payload) :
    (commandWord op data).toNat = 2 ^ 64 * op.toNat + data.toNat := by
  rw [commandWord, BitVec.toNat_append, Nat.mul_comm, ← Nat.shiftLeft_eq, Nat.shiftLeft_add_eq_or_of_lt data.isLt]

end Sys2Proof

namespace Sys2Proof.Machine

/-! ## Result words -/

section words
variable {α : Type} (E : Bank α)

theorem resWord_symbol (code : BitVec 4) (char : BitVec 8) :
    resWord { detect := true, code := code, char := char, energy := E } = 0b11#2 ++ (code ++ char) :=
  BitVec.append_assoc' (x₁ := 1#1) (x₂ := 1#1) (x₃ := code ++ char)

theorem resWord_noSymbol :
    resWord { detect := false, code := 0#4, char := 0x00#8, energy := E } = 0x2000#14 := by
  change (1#1 ++ (BitVec.ofBool false ++ (0#4 ++ 0x00#8)) : BitVec 14) = 0x2000#14
  decide

end words

/-! ## The obligations -/

/-- Settles O2, row by row. -/
theorem decodeEncodeRoundTrip : Obligations.DecodeEncodeRoundTrip :=
  fun lenW i h => decode_encode ((i.wellFormed_iff lenW).1 h).2

/-- Settles O3: a word is the word of some well-formed command, which the decoder gives back. -/
theorem encodeDecodeIdentity : Obligations.EncodeDecodeIdentity :=
  fun lenW w hlen => ⟨(Instr.wellFormed_iff _ _).2 ⟨hlen, payloadFits_decode lenW w⟩, encode_decode lenW w⟩

/-- Settles O4: the first row that selects the word of a command is its own, and every word is the word of the command
it decodes to. -/
theorem firstMatchingRowIsDecoded : Obligations.FirstMatchingRowIsDecoded := by
  intro w
  have hrow : Laws.RowMatch.Statement (decode 32 w) := by
    cases decode 32 w with
    | nop data => exact Laws.RowMatch.nop data
    | beginFrame data => exact Laws.RowMatch.beginFrame data
    | beginRsvbits data => exact Laws.RowMatch.beginRsvbits data
    | sample x => exact Laws.RowMatch.sample x
    | rsvd data => exact Laws.RowMatch.rsvd data
  have hword := hrow ((Instr.wellFormed_iff _ _).2 ⟨by decide, payloadFits_decode 32 w⟩)
  rwa [encode_decode] at hword

/-- Settles O1: the words are closed and the decoder computes. -/
theorem exampleWordsDecode : Obligations.ExampleWordsDecode := by
  unfold Obligations.ExampleWordsDecode
  decide

/-- Settles O5: a result word does not read the energies, so each is a closed word. -/
theorem resultWordsOfSymbols : Obligations.ResultWordsOfSymbols := by
  intro E
  simp only [resWord_symbol, resWord_noSymbol]
  decide

/-- Settles O7: below `2 ^ LEN_W`, which is at most `2 ^ 64`, `N` is its own payload. -/
theorem assembledBeginWord : Obligations.AssembledBeginWord := by
  intro lenW n hlen
  refine ⟨fun hn => ?word, fun hn => by simp [assembleCommands, Nat.not_lt.2 hn]⟩
  case word =>
    have h64 : n < 2 ^ 64 := hn.trans_le (Nat.pow_le_pow_right Nat.two_pos ((lenWLegal_iff lenW).1 hlen).2)
    have hword : commandWord 0b01#2 (BitVec.ofNat 64 n) = BitVec.ofNat 66 (2 ^ 64 + n) := by
      apply BitVec.eq_of_toNat_eq
      simp only [toNat_commandWord, BitVec.toNat_ofNat]
      omega
    simp [assembleCommands, hn, encode, hword]

end Sys2Proof.Machine
end

section
/-! SUPPORT. The family `10_state.md`, sections 4, 5 and 9: the invariant of a block holds after reset, every step keeps
it (R27, R30, R31), and an idle block that meets it is in the reset state (R34, R170). -/

namespace Sys2Proof.Machine

/-! ## The cell file -/

/-- The total power of a cell after a sample is a function of the one before and the sample alone (R27 (a)). -/
theorem cellTotalPower_congr {α : Type} (N : Num α) (x : α) {cell cell' : Cell α} (h : cell.tp = cell'.tp) :
    cellTotalPower N x cell = cellTotalPower N x cell' := by
  rw [cellTotalPower, cellTotalPower, h]

/-- `FB.SAMPLE` keeps the total power shared by the cells (R27 (a)). -/
theorem bankStep_tp_shared {α : Type} (N : Num α) (cfg : Cfg α) (x : α) {cells : Bank (Cell α)}
    (h : ∀ j k : Fin 8, (cells.get j).tp = (cells.get k).tp) (j k : Fin 8) :
    ((bankStep N cfg x cells).get j).tp = ((bankStep N cfg x cells).get k).tp := by
  rw [bankStep_get, bankStep_get, cellStep_tp, cellStep_tp, cellTotalPower_congr N x (h j k)]

/-! ## What each case of a step does to the invariant -/

section block
variable {α : Type} {N : Num α} {b : Block α}

theorem Block.inv_resetState {cfg : Cfg α} (hcfg : cfg.legal N = true) : (Block.resetState N.zero cfg).Inv N where
  cfg_legal := hcfg
  cnt_shared j k := by simp
  tp_shared j k := by simp
  acc_cnt h := by simp at h
  idle_cells _ k := by simp
  idle_len_idx _ := ⟨rfl, rfl⟩
  acc_idx_lt_len h := by simp at h
  len_fits := by simp
  idx_fits := by simp
  cnt_fits k := by simp
  fcode_clear _ := rfl
  fcode_valid h := by simp at h

/-- Fault entry leaves the cells, `len` and `idx`, of which the invariant says nothing more in `FAULT` (R195). -/
theorem Block.Inv.raiseFault (h : b.Inv N) (c : FaultCode) : (b.raiseFault c).1.Inv N where
  cfg_legal := h.cfg_legal
  cnt_shared := h.cnt_shared
  tp_shared := h.tp_shared
  acc_cnt hm := by simp at hm
  idle_cells hm := by simp at hm
  idle_len_idx hm := by simp at hm
  acc_idx_lt_len hm := by simp at hm
  len_fits := h.len_fits
  idx_fits := h.idx_fits
  cnt_fits := h.cnt_fits
  fcode_clear hm := by simp at hm
  fcode_valid _ := ⟨c, rfl⟩

/-- The start of a frame of `n` samples (R162). -/
theorem Block.Inv.begin (h : b.Inv N) (hm : b.mode = .idle) {n : Nat} (hn : n ≠ 0) (hfits : n < 2 ^ b.cfg.lenW) :
    Block.Inv N { b.fbReset N with len := n, idx := 0, mode := .acc } where
  cfg_legal := h.cfg_legal
  cnt_shared j k := by simp
  tp_shared j k := by simp
  acc_cnt _ k := by simp
  idle_cells h' := by simp at h'
  idle_len_idx h' := by simp at h'
  acc_idx_lt_len _ := Nat.pos_of_ne_zero hn
  len_fits := hfits
  idx_fits := by simp
  cnt_fits k := by simp
  fcode_clear _ := h.fcode_clear (by simp [hm])
  fcode_valid h' := by simp at h'

/-- The next sample of a frame (R163): `cnt` and `idx` grow together, and stay below `len`. -/
theorem Block.Inv.advance (h : b.Inv N) (hm : b.mode = .acc) (hlt : b.idx + 1 < b.len) (x : α) :
    Block.Inv N { b.fbSample N x with idx := b.idx + 1 } where
  cfg_legal := h.cfg_legal
  cnt_shared j k := by simp [h.cnt_shared j k]
  tp_shared := bankStep_tp_shared N b.cfg x h.tp_shared
  acc_cnt _ k := by simp [h.acc_cnt hm k]
  idle_cells h' := by simp [hm] at h'
  idle_len_idx h' := by simp [hm] at h'
  acc_idx_lt_len _ := hlt
  len_fits := h.len_fits
  idx_fits := hlt.trans h.len_fits
  cnt_fits k := by simpa [h.acc_cnt hm k] using hlt.trans h.len_fits
  fcode_clear _ := h.fcode_clear (by simp [hm])
  fcode_valid h' := by simp [hm] at h'

/-- Outside `FAULT` a completed frame leaves the reset state, `fcode` included (R164, R30). -/
theorem Block.Inv.complete_fst (h : b.Inv N) (hm : b.mode ≠ .fault) (x : α) :
    ((b.fbSample N x).complete N).1 = Block.resetState N.zero b.cfg := by
  rw [Block.complete_eq, Block.fbSample_cfg, Block.fbSample_fcode, h.fcode_clear hm]
  rfl

/-- In every number system a step keeps the invariant of the block. -/
theorem Block.Inv.step (h : b.Inv N) (rst : Bool) (c : Command α) : (b.step N rst c).1.Inv N := by
  rcases b.step_cases N rst c with
    ⟨_, reset⟩ | ⟨_, _, ignored⟩ | ⟨_, _, f, faults⟩ | ⟨_, hidle, data, _, _, hlen, begins⟩ |
    ⟨_, hacc, x, _, _, hlt, advances⟩ | ⟨_, hacc, x, _, _, _, completes⟩
  · rw [reset]
    exact Block.inv_resetState h.cfg_legal
  · rwa [ignored]
  · rw [faults]
    exact h.raiseFault f
  · rw [begins]
    exact h.begin hidle hlen (Nat.mod_lt _ (Nat.two_pow_pos _))
  · rw [advances]
    exact h.advance hacc hlt _
  · rw [completes, h.complete_fst (by simp [hacc])]
    exact Block.inv_resetState h.cfg_legal

/-- A step that emits a result accepts the finite sample that brings the count to `len`, and completes the frame
(R164). -/
theorem Block.step_of_result {rst : Bool} {c : Command α} (h : (b.step N rst c).2 ≠ none) :
    rst = false ∧ b.mode = .acc ∧ b.len ≤ b.idx + 1 ∧ ∃ x, c = .sample x ∧ N.isFinite x = true ∧
      b.step N rst c = (b.fbSample N (windowed N x b.idx b.len)).complete N := by
  rcases b.step_cases N rst c with
    ⟨_, reset⟩ | ⟨_, _, ignored⟩ | ⟨_, _, _, faults⟩ | ⟨_, _, _, _, _, _, begins⟩ |
    ⟨_, _, _, _, _, _, advances⟩ | ⟨hrst, hacc, x, hc, hx, hge, completes⟩
  · simp [reset] at h
  · simp [ignored] at h
  · simp [faults] at h
  · simp [begins] at h
  · simp [advances] at h
  · exact ⟨hrst, hacc, Nat.not_lt.1 hge, x, hc, hx, completes⟩

theorem Block.step_mode_of_result {rst : Bool} {c : Command α} (h : (b.step N rst c).2 ≠ none) :
    (b.step N rst c).1.mode = .idle := by
  obtain ⟨_, _, _, x, _, _, completes⟩ := Block.step_of_result h
  rw [completes, Block.complete_eq]
  rfl

/-- Under the invariant an idle block is the reset state of its configuration (R34). -/
theorem Block.Inv.eq_resetState (h : b.Inv N) (hm : b.mode = .idle) : b = Block.resetState N.zero b.cfg := by
  have hcells : b.cells = Bank.gen fun _ => Cell.reset N.zero := (Bank.eq_gen_iff _ _).2 (h.idle_cells hm)
  obtain ⟨hlen, hidx⟩ := h.idle_len_idx hm
  have hfcode : b.fcode = 0#3 := h.fcode_clear (by simp [hm])
  cases b
  simp_all [Block.resetState]

end block

/-! ## The obligations -/

/-- Settles O30: the block's invariant is kept in each case of a step, and a result comes with the mode `IDLE`. -/
theorem stepKeepsInvariant : Obligations.StepKeepsInvariant := by
  intro s t hs ht
  obtain rfl := (step_next_iff s t).1 ht
  exact ⟨hs.block.step _ _, Block.step_mode_of_result⟩

/-- Settles O31: what is constructed has legal parameters, and is in the reset state. -/
theorem invariantAtReset : Obligations.InvariantAtReset := by
  have hreset {cfg : Cfg F64} (hcfg : cfg.legal Num.f64 = true) :
      State.Inv { toBlock := Block.resetState 0#64 cfg, result := none, port := [] } :=
    ⟨Block.inv_resetState hcfg, fun h => absurd rfl h⟩
  refine ⟨hreset (by decide), fun cfg s hs => ?_⟩
  by_cases hcfg : cfg.legal Num.f64 = true
  · rw [State.construct_of_legal hcfg] at hs
    obtain rfl := Option.some.inj hs
    exact hreset hcfg
  · rw [State.construct_of_not_legal hcfg] at hs
    contradiction

/-- Settles O32: the cells, registers and `fcode` of an idle block are those of the reset state. -/
theorem idleIsTheResetState : Obligations.IdleIsTheResetState := fun _ hs hm => hs.block.eq_resetState hm

/-- Settles O11: the registers are read off `State.reset`; the two defaults are numbers that `ofNat` makes exactly. -/
theorem resetStateValues : Obligations.ResetStateValues :=
  ⟨Block.resetState_cells _ _, rfl, rfl, rfl, rfl, rfl, F64.ofNat_44100.symm, F64.ofNat_zero.symm, rfl⟩

end Sys2Proof.Machine
end

section
/-! SUPPORT. The family `43_decoder_commands.md`, sections 1 to 3: the step as the decoded command (R160), the outcomes
of `BEGIN` and `SAMPLE` (R162 to R164), what each command leaves unchanged, and the transition relation (R167). -/

namespace Sys2Proof.Machine

/-! ## The step and its input -/

theorem step_of_not_rst {s : State} (h : s.nextInput.rst = false) :
    step s = exec (decode s.cfg.lenW s.nextInput.cmd) s.takeInput := by
  simp [step, h]

/-- A presented command is executed by the step that takes it from the port (R160). -/
theorem step_of_port_eq_encode {s : State} {i : Instr} {rest : List PortInput} (hi : i.PayloadFits s.cfg.lenW)
    (h : s.port = { rst := false, cmd := encode i } :: rest) : step s = exec i { s with port := rest } := by
  have hinput := State.nextInput_of_port_eq_cons h
  rw [step_of_not_rst (by simp [hinput]), hinput, decode_encode hi, State.takeInput, h, List.tail_cons]

theorem idleInput_cmd : idleInput.cmd = encode (.nop 0#64) := by decide

/-- With nothing presented the step is that of `NOP` (R70). -/
theorem step_of_port_eq_nil {s : State} (h : s.port = []) : step s = .next { s with result := none } := by
  have hinput : s.nextInput = idleInput := by rw [State.nextInput, h, List.headD_nil]
  rw [step_of_not_rst (by simp [hinput, idleInput]), hinput, idleInput_cmd, decode_encode (i := .nop 0#64) trivial,
    exec_nop, State.takeInput, h, List.tail_nil, ← h]

/-! ## The outcomes of the commands -/

section outcomes
variable {s : State} {data : Payload} {x : F64}

theorem exec_of_fault (hm : s.mode = .fault) (i : Instr) : exec i s = .next { s with result := none } := by
  rw [exec_eq_step, Block.step_of_fault _ hm, State.commit_unchanged]

theorem exec_begin_of_acc {i : Instr} (hi : i = .beginFrame data ∨ i = .beginRsvbits data) (hm : s.mode = .acc) :
    exec i s = .next { s with mode := .fault, fcode := 3#3, result := none } := by
  obtain ⟨_, _, hexec, rfl, _⟩ := beginTestsInOrder s data i hi (by simp [hm])
  rw [hexec, if_pos hm]

theorem exec_beginRsvbits_of_idle (hm : s.mode = .idle) (hres : 2 ^ s.cfg.lenW ≤ data.toNat) :
    exec (.beginRsvbits data) s = .next { s with mode := .fault, fcode := 1#3, result := none } := by
  obtain ⟨_, _, hexec, rfl, _⟩ := beginTestsInOrder s data _ (.inr rfl) (by simp [hm])
  rw [hexec, if_neg (by simp [hm]), if_pos hres]

theorem exec_beginFrame_zero_of_idle (hm : s.mode = .idle) (hzero : data.toNat = 0) :
    exec (.beginFrame data) s = .next { s with mode := .fault, fcode := 2#3, result := none } := by
  obtain ⟨_, _, hexec, rfl, _⟩ := beginTestsInOrder s data _ (.inl rfl) (by simp [hm])
  rw [hexec, if_neg (by simp [hm]), if_neg (by simp [hzero]), if_pos hzero]

theorem exec_beginFrame_of_idle (hm : s.mode = .idle) (hfits : data.toNat < 2 ^ s.cfg.lenW) (hpos : data.toNat ≠ 0) :
    exec (.beginFrame data) s = .next { s with
      cells := Bank.gen fun _ => Cell.reset 0#64, len := data.toNat, idx := 0, mode := .acc, result := none } := by
  obtain ⟨_, _, hexec, rfl, _⟩ := beginTestsInOrder s data _ (.inl rfl) (by simp [hm])
  rw [hexec, if_neg (by simp [hm]), if_neg (Nat.not_le.2 hfits), if_neg hpos]

theorem exec_sample (hm : s.mode ≠ .fault) (x : F64) :
    exec (.sample x) s = .next (s.commit (s.toBlock.sample Num.f64 x)) := by
  simp [exec_eq_step, commandOf, Block.step, hm, sampleOperand]

theorem exec_sample_of_idle (hm : s.mode = .idle) (x : F64) :
    exec (.sample x) s = .next { s with mode := .fault, fcode := 4#3, result := none } := by
  rw [exec_sample (by simp [hm]), Block.sample, if_pos hm, State.commit_raiseFault, faultBits]

theorem exec_sample_nonfinite (hm : s.mode = .acc) (hx : F64.isFinite x = false) :
    exec (.sample x) s = .next { s with mode := .fault, fcode := 5#3, result := none } := by
  rw [exec_sample (by simp [hm]), Block.sample, if_neg (by simp [hm]), if_pos (by simpa using hx),
    State.commit_raiseFault, faultBits]

/-- The cells after the sample `x`: `FB.SAMPLE(x * WIN(idx, len))` on each (R163). -/
def State.cellsAfterSample (s : State) (x : F64) : Bank (Cell F64) :=
  bankStep Num.f64 s.cfg (windowed Num.f64 x s.idx s.len) s.cells

theorem exec_sample_advances (hm : s.mode = .acc) (hx : F64.isFinite x = true) (hlt : s.idx + 1 < s.len) :
    exec (.sample x) s = .next { s with cells := s.cellsAfterSample x, idx := s.idx + 1, result := none } := by
  rw [exec_sample (by simp [hm]), Block.sample, if_neg (by simp [hm]), if_neg (by simp [hx]), if_pos hlt]
  rfl

/-- The last sample of a frame, and any finite sample past it (R164; log entry 18). -/
theorem exec_sample_completes (hm : s.mode = .acc) (hx : F64.isFinite x = true) (hge : s.len ≤ s.idx + 1) :
    exec (.sample x) s = .next { s with
      toBlock := { Block.resetState 0#64 s.cfg with fcode := s.fcode }
      result := some (resultOf Num.f64 (bankEnergies (s.cellsAfterSample x)) s.cfg.energyThreshold) } := by
  rw [exec_sample (by simp [hm]), Block.sample, if_neg (by simp [hm]), if_neg (by simp [hx]),
    if_neg (Nat.not_lt.2 hge), Block.complete_eq]
  rfl

end outcomes

theorem commandOf_eq_sample_iff {i : Instr} {x : F64} : commandOf i = .sample x ↔ i = .sample x := by
  cases i <;> simp [commandOf, sampleOperand]

/-! ## The obligations: the step -/

/-- Settles O8. -/
theorem stepIsTotal : Obligations.StepIsTotal := by
  intro s
  refine ⟨_, step_eq s, fun hport => ?_⟩
  exact Host.Outcome.next.inj ((step_eq s).symm.trans (step_of_port_eq_nil hport))

/-- Settles O9: the decoder gives a well-formed command back. -/
theorem stepRunsDecodedCommand : Obligations.StepRunsDecodedCommand :=
  fun _ i _ hi hport => step_of_port_eq_encode ((i.wellFormed_iff _).1 hi).2 hport

/-! ## The obligations: the commands -/

/-- Settles O14: the fourth case of R162's tests. -/
theorem beginStartsFrame : Obligations.BeginStartsFrame :=
  fun _ _ hm hfits hpos => exec_beginFrame_of_idle hm hfits hpos

/-- Settles O16: the second case of R162's tests. -/
theorem beginRsvbitsFaultsInIdle : Obligations.BeginRsvbitsFaultsInIdle :=
  fun _ _ hm hres => exec_beginRsvbits_of_idle hm hres

/-- Settles O19: the mode is tested before the operand. -/
theorem sampleFaultsInOrder : Obligations.SampleFaultsInOrder :=
  fun _ x => ⟨fun hm => exec_sample_of_idle hm x, fun hm hx => exec_sample_nonfinite hm hx⟩

/-- Settles O21. -/
theorem faultIgnoresCommands : Obligations.FaultIgnoresCommands := fun _ i hm => exec_of_fault hm i

/-- Settles O17: the cells after the sample are `cellStep` on each. -/
theorem sampleAdvancesFrame : Obligations.SampleAdvancesFrame :=
  fun _ _ hm hx hlt => exec_sample_advances hm hx hlt

/-- Settles O18: the energies given cell by cell are those of the bank after the sample, and `fcode` is 0 already. -/
theorem lastSampleCompletesFrame : Obligations.LastSampleCompletesFrame := by
  intro s x hm hx hlast hfcode E hE
  have henergies : bankEnergies (s.cellsAfterSample x) = E := Bank.ext_get fun k => by
    rw [hE, bankEnergies_get, State.cellsAfterSample, bankStep_get]
    rfl
  rw [exec_sample_completes hm hx hlast.ge, hfcode, henergies]
  rfl

/-! ## The obligations: transitions and results -/

/-- Settles O24: for each mode and command, the outcome of that command. -/
theorem modeTransitions : Obligations.ModeTransitions := by
  intro s t ht
  refine ⟨fun hr => ?reset, fun hr => ?command⟩
  case reset =>
    obtain rfl := (step_next_iff s t).1 ht
    rw [hr, Block.step_rst]
    exact ⟨rfl, rfl⟩
  case command =>
    rw [step_of_not_rst hr] at ht
    have hfits := payloadFits_decode s.cfg.lenW s.nextInput.cmd
    have next {i : Instr} {u : State} (hi : decode s.cfg.lenW s.nextInput.cmd = i)
        (h : exec i s.takeInput = .next u) : t = u :=
      Host.Outcome.next.inj (ht.symm.trans (hi ▸ h))
    cases hm : s.mode with
    | fault =>
      obtain rfl := next rfl (exec_of_fault (s := s.takeInput) hm _)
      exact ⟨hm, rfl⟩
    | idle =>
      cases hi : decode s.cfg.lenW s.nextInput.cmd with
      | nop data =>
        obtain rfl := next hi (exec_nop _ data)
        exact ⟨hm, rfl⟩
      | beginFrame data =>
        rw [hi] at hfits
        refine ⟨fun hpos => ?_, fun hzero => ?_⟩
        · obtain rfl := next hi (exec_beginFrame_of_idle hm hfits hpos)
          exact ⟨rfl, rfl⟩
        · obtain rfl := next hi (exec_beginFrame_zero_of_idle hm hzero)
          exact ⟨rfl, rfl, rfl⟩
      | beginRsvbits data =>
        rw [hi] at hfits
        obtain rfl := next hi (exec_beginRsvbits_of_idle hm hfits)
        exact ⟨rfl, rfl, rfl⟩
      | sample x =>
        obtain rfl := next hi (exec_sample_of_idle (s := s.takeInput) hm x)
        exact ⟨rfl, rfl, rfl⟩
      | rsvd data =>
        obtain rfl := next hi (exec_rsvd (by simp [hm]) data)
        exact ⟨rfl, rfl, rfl⟩
    | acc =>
      cases hi : decode s.cfg.lenW s.nextInput.cmd with
      | nop data =>
        obtain rfl := next hi (exec_nop _ data)
        exact ⟨hm, rfl⟩
      | beginFrame data =>
        obtain rfl := next hi (exec_begin_of_acc (.inl rfl) hm)
        exact ⟨rfl, rfl, rfl⟩
      | beginRsvbits data =>
        obtain rfl := next hi (exec_begin_of_acc (.inr rfl) hm)
        exact ⟨rfl, rfl, rfl⟩
      | sample x =>
        refine ⟨fun hx hlt => ?_, fun hx hlast => ?_, fun hx => ?_⟩
        · obtain rfl := next hi (exec_sample_advances hm hx hlt)
          exact ⟨hm, rfl⟩
        · obtain rfl := next hi (exec_sample_completes hm hx hlast.ge)
          exact ⟨rfl, by simp⟩
        · obtain rfl := next hi (exec_sample_nonfinite hm hx)
          exact ⟨rfl, rfl, rfl⟩
      | rsvd data =>
        obtain rfl := next hi (exec_rsvd (by simp [hm]) data)
        exact ⟨rfl, rfl, rfl⟩

/-- Settles O25: of a step's cases only frame completion emits, and the finite sample that brings the count to `len`
completes the frame. -/
theorem resultOnlyAtCompletion : Obligations.ResultOnlyAtCompletion := by
  intro s t ht
  refine ⟨fun hres => ?emits, ?completes⟩
  case emits =>
    obtain rfl := (step_next_iff s t).1 ht
    obtain ⟨hrst, hacc, hge, x, hx, hfin, _⟩ := Block.step_of_result hres
    exact ⟨hrst, hacc, hge, x, commandOf_eq_sample_iff.1 hx, hfin⟩
  case completes =>
    rintro ⟨hrst, hacc, hge, x, hx, hfin⟩
    rw [step_of_not_rst hrst, hx] at ht
    obtain rfl := Host.Outcome.next.inj (ht.symm.trans (exec_sample_completes hacc hfin hge))
    simp

/-! ## The obligations: what a command leaves unchanged -/

/-- What `NOP`, `RSVD` and `BEGIN.RSVBITS` write but the result: `mode` and `fcode`, and `NOP` not these either. -/
theorem exec_nop_rsvd_rsvbits {i : Instr} {s : State} (hfits : i.PayloadFits s.cfg.lenW)
    (hbegin : ∀ data, i ≠ .beginFrame data) (hsample : ∀ x, i ≠ .sample x) :
    ∃ m f, exec i s = .next { s with mode := m, fcode := f, result := none } ∧
      ∀ data, i = .nop data → m = s.mode ∧ f = s.fcode := by
  cases i with
  | nop data => exact ⟨_, _, exec_nop s data, fun _ _ => ⟨rfl, rfl⟩⟩
  | rsvd data =>
    by_cases hm : s.mode = .fault
    · exact ⟨_, _, exec_of_fault hm _, fun _ _ => ⟨rfl, rfl⟩⟩
    · exact ⟨_, _, exec_rsvd hm data, by simp⟩
  | beginRsvbits data =>
    cases hm : s.mode with
    | idle => exact ⟨_, _, exec_beginRsvbits_of_idle hm hfits, by simp⟩
    | acc => exact ⟨_, _, exec_begin_of_acc (.inr rfl) hm, by simp⟩
    | fault => exact ⟨_, _, exec_of_fault hm _, by simp⟩
  | beginFrame data => exact (hbegin data rfl).elim
  | sample x => exact (hsample x rfl).elim

/-- Settles O26. -/
theorem frameOfNopRsvdRsvbits : Obligations.FrameOfNopRsvdRsvbits := by
  intro i s t hwf hi ht
  have hbegin : ∀ data, i ≠ .beginFrame data := by rintro data rfl; exact hi
  have hsample : ∀ x, i ≠ .sample x := by rintro x rfl; exact hi
  obtain ⟨m, f, hexec, hnop⟩ := exec_nop_rsvd_rsvbits ((i.wellFormed_iff _).1 hwf).2 hbegin hsample
  obtain rfl := Host.Outcome.next.inj (ht.symm.trans hexec)
  exact ⟨rfl, rfl, rfl, rfl, rfl, rfl, hnop⟩

/-- Settles O27: ignored in `FAULT`, three fault entries, and the start of a frame, which alone writes the cells, `len`
and `idx`. -/
theorem frameOfBegin : Obligations.FrameOfBegin := by
  intro data s t ht
  by_cases hm : s.mode = .fault
  · obtain rfl := Host.Outcome.next.inj (ht.symm.trans (exec_of_fault hm _))
    simp
  · obtain rfl := Host.Outcome.next.inj (ht.symm.trans (exec_of_commandOf_eq_beginFrame rfl hm))
    rcases s.toBlock.beginFrame_cases Num.f64 data with
      ⟨_, faults⟩ | ⟨_, _, faults⟩ | ⟨_, _, _, faults⟩ | ⟨_, _, _, begins⟩
    · simp [faults]
    · simp [faults]
    · simp [faults]
    · simp [begins]

/-- Settles O28: ignored in `FAULT`, two fault entries, the next sample, which writes the cells and `idx`, and frame
completion, which alone writes `len`. -/
theorem frameOfSample : Obligations.FrameOfSample := by
  intro x s t ht
  by_cases hm : s.mode = .fault
  · obtain rfl := Host.Outcome.next.inj (ht.symm.trans (exec_of_fault hm _))
    simp
  · obtain rfl := Host.Outcome.next.inj (ht.symm.trans (exec_sample hm x))
    rcases s.toBlock.sample_cases Num.f64 x with
      ⟨_, faults⟩ | ⟨_, _, faults⟩ | ⟨_, _, _, advances⟩ | ⟨_, _, _, completes⟩
    · simp [faults]
    · simp [faults]
    · simp [advances, hm]
    · simp [completes, Block.complete_eq]

end Sys2Proof.Machine
end

section
/-! SUPPORT. The family `41_window.md`: the first weight under `F64` (R133), and the weights under `REAL` as a function
of one cosine: their values, symmetry and bounds (R130, R133). -/

namespace Sys2Proof

/-! ## The first weight under `F64` -/

theorem F64.two_pi_mul_zero : F64.mul 0x401921FB54442D18#64 0#64 = 0#64 := by
  rw [F64.mul_isZero (by decide) (by decide) (.inr (by decide))]
  decide

theorem F64.four_pi_mul_zero : F64.mul 0x402921FB54442D18#64 0#64 = 0#64 := by
  rw [F64.mul_isZero (by decide) (by decide) (.inr (by decide))]
  decide

theorem F64.zero_div_ofNat_succ (n : Nat) : F64.div 0#64 (F64.ofNat (n + 1)) = 0#64 := by
  rw [F64.div_isZero (by decide) (F64.isNaN_ofNat _) (F64.isZero_ofNat_succ n), F64.sign_ofNat]
  decide

/-- `A0 - A1 + A2` under `F64`, in the order of R130: where both cosines are 1. -/
theorem F64.window_literals_sum :
    F64.add (F64.sub 0x3FDB4D44567125DD#64 (F64.mul 0x3FDFC7A7C9DE0503#64 0x3FF0000000000000#64))
      (F64.mul 0x3FB3AC6045BAF534#64 0x3FF0000000000000#64) = 0x3F7C2D27807789C0#64 := by decide +kernel

end Sys2Proof

namespace Sys2Proof.Machine

/-! ## The weights under `REAL` -/

/-- The angle of the first cosine of R130; the second cosine's is twice it. -/
noncomputable def windowAngle (i n : Nat) : ℝ := 2 * Real.pi * i / n

/-- R130's formula as a function of the first cosine, with `cos (2 * θ) = 2 * (cos θ)^2 - 1`. -/
noncomputable def windowPoly (c : ℝ) : ℝ := 0.426591 - 0.496561 * c + 0.076849 * (2 * c ^ 2 - 1)

theorem win_real (i n : Nat) : win Num.real i n = windowPoly (Real.cos (windowAngle i n)) := by
  have hdouble : 4 * Real.pi * i / n = 2 * windowAngle i n := by rw [windowAngle]; ring
  have hangle : 2 * Real.pi * i / n = windowAngle i n := rfl
  simp only [win, Num.real_add, Num.real_sub, Num.real_mul, Num.real_div, Num.real_cos, Num.real_two, Num.real_four,
    Num.real_pi, Num.real_ofNat, Num.real_lit, hdouble, hangle, Real.cos_two_mul, windowPoly, Decimal.toReal, windowA0,
    windowA1, windowA2]
  norm_num

theorem cos_windowAngle_zero (n : Nat) : Real.cos (windowAngle 0 n) = 1 := by simp [windowAngle]

/-- Halfway through the frame the angle is `π`. -/
theorem cos_windowAngle_half {n : Nat} (hn : 0 < n) : Real.cos (windowAngle n (2 * n)) = -1 := by
  have hn' : (n : ℝ) ≠ 0 := Nat.cast_ne_zero.2 hn.ne'
  have hangle : windowAngle n (2 * n) = Real.pi := by
    rw [windowAngle]
    push_cast
    field_simp
  rw [hangle, Real.cos_pi]

/-- The angles of positions `i` and `n - i` add up to a full turn. -/
theorem cos_windowAngle_sub {i n : Nat} (hi : i < n) :
    Real.cos (windowAngle (n - i) n) = Real.cos (windowAngle i n) := by
  have hn : (n : ℝ) ≠ 0 := Nat.cast_ne_zero.2 (Nat.ne_zero_of_lt hi)
  have hangle : windowAngle (n - i) n = 2 * Real.pi - windowAngle i n := by
    rw [windowAngle, windowAngle, Nat.cast_sub hi.le]
    field_simp
  rw [hangle, Real.cos_two_pi_sub]

/-- The weight decreases as the cosine grows, from its value at -1 to that at 1. -/
theorem windowPoly_bounds {c : ℝ} (hlow : -1 ≤ c) (hhigh : c ≤ 1) :
    0.006879 ≤ windowPoly c ∧ windowPoly c ≤ 1.000001 := by
  have hfirst : windowPoly c - 0.006879 = (1 - c) * (0.342863 - 0.153698 * c) := by rw [windowPoly]; ring
  have hpeak : 1.000001 - windowPoly c = (1 + c) * (0.650259 - 0.153698 * c) := by rw [windowPoly]; ring
  constructor
  · have := mul_nonneg (sub_nonneg.2 hhigh) (show 0 ≤ 0.342863 - 0.153698 * c by linarith)
    linarith
  · have := mul_nonneg (show 0 ≤ 1 + c by linarith) (show 0 ≤ 0.650259 - 0.153698 * c by linarith)
    linarith

theorem win_real_bounds (i n : Nat) : 0.006879 ≤ win Num.real i n ∧ win Num.real i n ≤ 1.000001 := by
  rw [win_real]
  exact windowPoly_bounds (Real.neg_one_le_cos _) (Real.cos_le_one _)

/-- No weight is 0 under `REAL`, so that a sample other than 0 stays one when it is windowed. -/
theorem windowed_real_ne_zero {x : ℝ} (hx : x ≠ 0) (i n : Nat) : windowed Num.real x i n ≠ 0 := by
  have hweight : 0 < win Num.real i n := lt_of_lt_of_le (by norm_num) (win_real_bounds i n).1
  exact mul_ne_zero hx hweight.ne'

/-! ## The obligations -/

/-- Settles O47: at `i = 0` both angles are `+0`, so both cosines are 1. -/
theorem firstWindowWeightF64 : Obligations.FirstWindowWeightF64 := by
  intro cos n hcos hn
  obtain ⟨m, rfl⟩ := Nat.exists_eq_succ_of_ne_zero hn.ne'
  have hcos0 : cos 0#64 = 0x3FF0000000000000#64 := hcos
  rw [win_f64With, F64.ofNat_zero, F64.two_pi_mul_zero, F64.four_pi_mul_zero, F64.zero_div_ofNat_succ, hcos0,
    F64.window_literals_sum]

/-- Settles O48: the cosine is 1 at the first sample and -1 halfway. -/
theorem realWindowValues : Obligations.RealWindowValues := by
  intro n hn
  rw [win_real, win_real, cos_windowAngle_zero, cos_windowAngle_half hn, windowPoly, windowPoly]
  norm_num

/-- Settles O49. -/
theorem realWindowSymmetryAndBounds : Obligations.RealWindowSymmetryAndBounds := by
  intro i n hi
  refine ⟨fun _ => ?_, win_real_bounds i n⟩
  rw [win_real, win_real, cos_windowAngle_sub hi]

end Sys2Proof.Machine
end

section
/-! SUPPORT. The family `42_tone_interpreter.md`: the symbol table (R144, R148), `GROUPSEL` as the first position of
greatest qualifying energy (R145, R147), and `SELECTSYMBOL` under a threshold (R142, R146, R232). -/

namespace Sys2Proof

/-- The key of a binary64 number, which a NaN has not. -/
def F64.key? (a : F64) : Option Int := if F64.isNaN a then none else some (F64.key a)

theorem F64.key?_eq_some_iff (a : F64) (k : Int) :
    F64.key? a = some k ↔ F64.isNaN a = false ∧ F64.key a = k := by
  cases h : F64.isNaN a <;> simp [F64.key?, h]

end Sys2Proof

namespace Sys2Proof.Machine

/-! ## Ordered number systems -/

/-- `>` and `>=` compare keys of a linear order, and are false of what has none: the NaNs of `F64` (R11, R147). -/
structure Num.Ordered {α κ : Type} [LinearOrder κ] (N : Num α) (key : α → Option κ) : Prop where
  gt_iff : ∀ a b, N.gt a b = true ↔ ∃ ka kb, key a = some ka ∧ key b = some kb ∧ kb < ka
  ge_iff : ∀ a b, N.ge a b = true ↔ ∃ ka kb, key a = some ka ∧ key b = some kb ∧ kb ≤ ka

theorem Num.f64With_ordered (cos : F64 → F64) : (Num.f64With cos).Ordered F64.key? where
  gt_iff a b := by simp [F64.gt_iff, F64.key?_eq_some_iff, and_assoc]
  ge_iff a b := by simp [F64.ge_iff, F64.key?_eq_some_iff, and_assoc]

theorem Num.real_ordered : Num.real.Ordered (some : ℝ → Option ℝ) where
  gt_iff a b := by simp
  ge_iff a b := by simp

section order
variable {α κ : Type} [LinearOrder κ] {N : Num α} {key : α → Option κ} (O : N.Ordered key) {a b c : α}
include O

theorem Num.Ordered.ge_of_gt (h : N.gt a b = true) : N.ge a b = true := by
  obtain ⟨ka, kb, ha, hb, hlt⟩ := (O.gt_iff a b).1 h
  exact (O.ge_iff a b).2 ⟨ka, kb, ha, hb, hlt.le⟩

theorem Num.Ordered.ge_trans (hab : N.ge a b = true) (hbc : N.ge b c = true) : N.ge a c = true := by
  obtain ⟨ka, kb, ha, hb, hle⟩ := (O.ge_iff a b).1 hab
  obtain ⟨kb', kc, hb', hc, hle'⟩ := (O.ge_iff b c).1 hbc
  obtain rfl : kb = kb' := Option.some.inj (hb.symm.trans hb')
  exact (O.ge_iff a c).2 ⟨ka, kc, ha, hc, hle'.trans hle⟩

theorem Num.Ordered.gt_of_gt_of_ge (hab : N.gt a b = true) (hbc : N.ge b c = true) : N.gt a c = true := by
  obtain ⟨ka, kb, ha, hb, hlt⟩ := (O.gt_iff a b).1 hab
  obtain ⟨kb', kc, hb', hc, hle⟩ := (O.ge_iff b c).1 hbc
  obtain rfl : kb = kb' := Option.some.inj (hb.symm.trans hb')
  exact (O.gt_iff a c).2 ⟨ka, kc, ha, hc, hle.trans_lt hlt⟩

theorem Num.Ordered.not_ge_of_gt (h : N.gt a b = true) : ¬ N.ge b a = true := by
  obtain ⟨ka, kb, ha, hb, hlt⟩ := (O.gt_iff a b).1 h
  intro hge
  obtain ⟨kb', ka', hb', ha', hle⟩ := (O.ge_iff b a).1 hge
  obtain rfl : ka = ka' := Option.some.inj (ha.symm.trans ha')
  obtain rfl : kb = kb' := Option.some.inj (hb.symm.trans hb')
  exact absurd hle (not_le.2 hlt)

theorem Num.Ordered.ge_self_left (h : N.ge a b = true) : N.ge a a = true := by
  obtain ⟨ka, _, ha, _, _⟩ := (O.ge_iff a b).1 h
  exact (O.ge_iff a a).2 ⟨ka, ka, ha, ha, le_rfl⟩

/-- Two energies that compare with something compare with each other. -/
theorem Num.Ordered.ge_or_gt {d : α} (ha : N.ge a c = true) (hb : N.ge b d = true) :
    N.ge a b = true ∨ N.gt b a = true := by
  obtain ⟨ka, _, ha, _, _⟩ := (O.ge_iff a c).1 ha
  obtain ⟨kb, _, hb, _, _⟩ := (O.ge_iff b d).1 hb
  rcases le_or_gt kb ka with h | h
  · exact .inl ((O.ge_iff a b).2 ⟨ka, kb, ha, hb, h⟩)
  · exact .inr ((O.gt_iff b a).2 ⟨kb, ka, hb, ha, h⟩)

end order

/-! ## The scan of `GROUPSEL` -/

section scan
variable {α : Type} (N : Num α) (E : Bank α) (g : Group) (thr : α)

/-- Position `j` may be selected: its energy is above 0 and at least the threshold (R145). -/
def Qualifies (j : Fin 4) : Prop := N.gt (E.get (g.cell j)) N.zero = true ∧ N.ge (E.get (g.cell j)) thr = true

/-- Position `j` is the first of greatest energy among the qualifying positions that `P` holds of (R145). -/
def FirstGreatest (P : Fin 4 → Prop) (j : Fin 4) : Prop :=
  Qualifies N E g thr j ∧ P j ∧ ∀ i, P i → Qualifies N E g thr i →
    N.ge (E.get (g.cell j)) (E.get (g.cell i)) = true ∧
    (i < j → N.gt (E.get (g.cell j)) (E.get (g.cell i)) = true)

/-- The leader of a scan that has passed the positions `P` holds of: none of them qualifies, or it is their first
greatest. -/
def Leader.Leads (P : Fin 4 → Prop) (l : Leader α) : Prop :=
  (l.best = none ∧ l.bestE = N.zero ∧ ∀ i, P i → ¬ Qualifies N E g thr i) ∨
  ∃ j, l.best = some j ∧ l.bestE = E.get (g.cell j) ∧ FirstGreatest N E g thr P j

variable {N E g thr}

theorem scanStep_of_taken {l : Leader α} {j : Fin 4} (hgt : N.gt (E.get (g.cell j)) l.bestE = true)
    (hge : N.ge (E.get (g.cell j)) thr = true) :
    scanStep N E g thr l j = { best := some j, bestE := E.get (g.cell j) } := by
  simp [scanStep, hgt, hge]

theorem scanStep_of_not_taken {l : Leader α} {j : Fin 4}
    (h : ¬ (N.gt (E.get (g.cell j)) l.bestE = true ∧ N.ge (E.get (g.cell j)) thr = true)) :
    scanStep N E g thr l j = l := by
  rw [← Bool.and_eq_true, Bool.not_eq_true] at h
  simp [scanStep, h]

/-- One iteration, at a position behind all those passed. -/
theorem Leader.Leads.scanStep {κ : Type} [LinearOrder κ] {key : α → Option κ} (O : N.Ordered key) {P : Fin 4 → Prop}
    {l : Leader α} (h : l.Leads N E g thr P) {j : Fin 4} (hj : ∀ i, P i → i < j) :
    (scanStep N E g thr l j).Leads N E g thr (fun i => P i ∨ i = j) := by
  by_cases htaken : N.gt (E.get (g.cell j)) l.bestE = true ∧ N.ge (E.get (g.cell j)) thr = true
  · obtain ⟨hgt, hge⟩ := htaken
    rw [scanStep_of_taken hgt hge]
    refine .inr ⟨j, rfl, rfl, ?_⟩
    have hself := O.ge_self_left hge
    rcases h with ⟨_, hzero, hnone⟩ | ⟨b, _, hbest, ⟨hbpos, _⟩, _, hmax⟩
    · refine ⟨⟨hzero ▸ hgt, hge⟩, .inr rfl, ?_⟩
      rintro i (hi | rfl) hqi
      · exact absurd hqi (hnone i hi)
      · exact ⟨hself, fun hlt => absurd hlt (lt_irrefl _)⟩
    · rw [hbest] at hgt
      refine ⟨⟨O.gt_of_gt_of_ge hgt (O.ge_of_gt hbpos), hge⟩, .inr rfl, ?_⟩
      rintro i (hi | rfl) hqi
      · have hgti := O.gt_of_gt_of_ge hgt (hmax i hi hqi).1
        exact ⟨O.ge_of_gt hgti, fun _ => hgti⟩
      · exact ⟨hself, fun hlt => absurd hlt (lt_irrefl _)⟩
  · rw [scanStep_of_not_taken htaken]
    rcases h with ⟨hbest, hzero, hnone⟩ | ⟨b, hb, hbest, ⟨hbpos, hbge⟩, hPb, hmax⟩
    · refine .inl ⟨hbest, hzero, ?_⟩
      rintro i (hi | rfl) hqi
      · exact hnone i hi hqi
      · exact htaken ⟨hzero ▸ hqi.1, hqi.2⟩
    · refine .inr ⟨b, hb, hbest, ⟨hbpos, hbge⟩, .inl hPb, ?_⟩
      rintro i (hi | rfl) hqi
      · exact hmax i hi hqi
      · have hge : N.ge (E.get (g.cell b)) (E.get (g.cell i)) = true :=
          (O.ge_or_gt hbge hqi.2).resolve_right fun hgt => htaken ⟨hbest ▸ hgt, hqi.2⟩
        exact ⟨hge, fun hlt => absurd (hj b hPb) (lt_asymm hlt)⟩

/-- After the four iterations every position has been passed. -/
theorem groupSel_leads {κ : Type} [LinearOrder κ] {key : α → Option κ} (O : N.Ordered key) :
    (groupSel N E g thr = none ∧ ∀ i, ¬ Qualifies N E g thr i) ∨
    ∃ j, groupSel N E g thr = some j ∧ FirstGreatest N E g thr (fun _ => True) j := by
  have h0 : Leader.Leads N E g thr (fun _ => False) { best := none, bestE := N.zero } :=
    .inl ⟨rfl, rfl, fun _ hi => hi.elim⟩
  have h1 := h0.scanStep O (j := 0) (by decide)
  have h2 := h1.scanStep O (j := 1) (by decide)
  have h3 := h2.scanStep O (j := 2) (by decide)
  have h4 := h3.scanStep O (j := 3) (by decide)
  have hall : (fun i : Fin 4 => (((False ∨ i = 0) ∨ i = 1) ∨ i = 2) ∨ i = 3) = fun _ => True := by
    funext i
    revert i
    decide
  rw [hall] at h4
  rcases h4 with ⟨hbest, _, hnone⟩ | ⟨j, hbest, _, hj⟩
  · exact .inl ⟨hbest, fun i => hnone i trivial⟩
  · exact .inr ⟨j, hbest, hj⟩

/-- There is one first greatest position. -/
theorem FirstGreatest.unique {κ : Type} [LinearOrder κ] {key : α → Option κ} (O : N.Ordered key) {P : Fin 4 → Prop}
    {j j' : Fin 4} (h : FirstGreatest N E g thr P j) (h' : FirstGreatest N E g thr P j') : j = j' := by
  obtain ⟨hq, hP, hmax⟩ := h
  obtain ⟨hq', hP', hmax'⟩ := h'
  rcases lt_trichotomy j j' with hlt | heq | hlt
  · exact absurd (hmax j' hP' hq').1 (O.not_ge_of_gt ((hmax' j hP hq).2 hlt))
  · exact heq
  · exact absurd (hmax' j hP hq).1 (O.not_ge_of_gt ((hmax j' hP' hq').2 hlt))

theorem groupSel_eq_none_iff {κ : Type} [LinearOrder κ] {key : α → Option κ} (O : N.Ordered key) :
    groupSel N E g thr = none ↔ ∀ i, ¬ Qualifies N E g thr i := by
  rcases groupSel_leads (E := E) (g := g) (thr := thr) O with ⟨hsel, hnone⟩ | ⟨j, hsel, hq, _⟩
  · exact iff_of_true hsel hnone
  · exact iff_of_false (by simp [hsel]) fun h => h j hq

theorem groupSel_eq_some_iff {κ : Type} [LinearOrder κ] {key : α → Option κ} (O : N.Ordered key) (j : Fin 4) :
    groupSel N E g thr = some j ↔ FirstGreatest N E g thr (fun _ => True) j := by
  rcases groupSel_leads (E := E) (g := g) (thr := thr) O with ⟨hsel, hnone⟩ | ⟨j', hsel, hfirst⟩
  · exact iff_of_false (by simp [hsel]) fun h => hnone j h.1
  · rw [hsel, Option.some_inj]
    exact ⟨fun h => h ▸ hfirst, fun h => hfirst.unique O h⟩

/-- In any number system a scan over energies none of which is above 0 selects nothing. -/
theorem groupSel_eq_none_of_not_gt (h : ∀ k, N.gt (E.get k) N.zero = false) : groupSel N E g thr = none := by
  have hstep (j : Fin 4) : scanStep N E g thr { best := none, bestE := N.zero } j = { best := none, bestE := N.zero } :=
    scanStep_of_not_taken (by simp [h])
  simp [groupSel, hstep]

/-! ## `SELECTSYMBOL` -/

theorem selectSymbol_eq_some_iff (code : Fin 16) :
    selectSymbol N E thr = some code ↔
      ∃ l h, groupSel N E .low thr = some l ∧ groupSel N E .high thr = some h ∧ symbolCode l h = code := by
  unfold selectSymbol
  cases groupSel N E .low thr <;> cases groupSel N E .high thr <;> simp

theorem selectSymbol_eq_none_of_low (h : groupSel N E .low thr = none) : selectSymbol N E thr = none := by
  simp [selectSymbol, h]

theorem selectSymbol_eq_none_of_high (h : groupSel N E .high thr = none) : selectSymbol N E thr = none := by
  cases hl : groupSel N E .low thr <;> simp [selectSymbol, h, hl]

theorem selectSymbol_congr {E' : Bank α} {thr' : α} (h : ∀ g, groupSel N E g thr = groupSel N E' g thr') :
    selectSymbol N E thr = selectSymbol N E' thr' := by
  rw [selectSymbol, selectSymbol, h, h]

theorem resultOf_detect : (resultOf N E thr).detect = (selectSymbol N E thr).isSome := by
  unfold resultOf
  cases selectSymbol N E thr <;> rfl

theorem resultOf_energy : (resultOf N E thr).energy = E := by
  unfold resultOf
  cases selectSymbol N E thr <;> rfl

theorem resultOf_of_none (h : selectSymbol N E thr = none) :
    resultOf N E thr = { detect := false, code := 0#4, char := 0x00#8, energy := E } := by
  simp [resultOf, h]

theorem resultOf_congr {thr' : α} (h : selectSymbol N E thr = selectSymbol N E thr') :
    resultOf N E thr = resultOf N E thr' := by
  rw [resultOf, resultOf, h]

/-! ## Raising the threshold -/

/-- A position that qualifies at the greater threshold has an energy above all that qualify at the smaller one only, so
the first greatest stays the first greatest (R146). -/
theorem groupSel_of_raised {κ : Type} [LinearOrder κ] {key : α → Option κ} (O : N.Ordered key) {thr2 : α}
    (hthr : N.ge thr2 thr = true) :
    groupSel N E g thr2 = groupSel N E g thr ∨ groupSel N E g thr2 = none := by
  cases hsel : groupSel N E g thr2 with
  | none => exact .inr rfl
  | some j =>
    obtain ⟨⟨hpos, hge⟩, _, hmax⟩ := (groupSel_eq_some_iff O j).1 hsel
    refine .inl (((groupSel_eq_some_iff O j).2 ⟨⟨hpos, O.ge_trans hge hthr⟩, trivial, fun i _ hqi => ?_⟩).symm)
    rcases O.ge_or_gt hqi.2 hthr with hi | hi
    · exact hmax i trivial ⟨hqi.1, hi⟩
    · have hgt : N.gt (E.get (g.cell j)) (E.get (g.cell i)) = true :=
        (O.ge_or_gt hqi.2 hge).elim (fun h => absurd (O.ge_trans h hge) (O.not_ge_of_gt hi)) id
      exact ⟨O.ge_of_gt hgt, fun _ => hgt⟩

theorem selectSymbol_of_raised {κ : Type} [LinearOrder κ] {key : α → Option κ} (O : N.Ordered key) {thr2 : α}
    (hthr : N.ge thr2 thr = true) :
    selectSymbol N E thr2 = selectSymbol N E thr ∨ selectSymbol N E thr2 = none := by
  rcases groupSel_of_raised (E := E) (g := .low) O hthr with hlow | hlow
  · rcases groupSel_of_raised (E := E) (g := .high) O hthr with hhigh | hhigh
    · exact .inl (selectSymbol_congr fun g => by cases g <;> assumption)
    · exact .inr (selectSymbol_eq_none_of_high hhigh)
  · exact .inr (selectSymbol_eq_none_of_low hlow)

end scan

/-! ## The obligations -/

/-- Settles O34: a finite table, and distinct characters in it. -/
theorem symbolMapInjective : Obligations.SymbolMapInjective :=
  ⟨by decide, fun _ _ => rfl, by decide, by decide⟩

/-- Settles O52. -/
theorem selectSymbolNeedsBothGroups : Obligations.SelectSymbolNeedsBothGroups := by
  intro α N E thr code
  rw [selectSymbol_eq_some_iff]
  simp [Fin.ext_iff, symbolCode, eq_comm]

/-- Settles O50: both number systems are ordered. -/
theorem groupSelClosedForm : Obligations.GroupSelClosedForm := by
  refine ⟨fun cos E g thr Q hQ => ?f64, fun E g thr Q hQ => ?real⟩
  case f64 =>
    obtain rfl : Q = Qualifies (Num.f64With cos) E g thr := funext fun j => propext (hQ j)
    refine ⟨groupSel_eq_none_iff (Num.f64With_ordered cos), fun j => ?_⟩
    simp [groupSel_eq_some_iff (Num.f64With_ordered cos), FirstGreatest]
  case real =>
    obtain rfl : Q = Qualifies Num.real E g thr := funext fun j => propext ((hQ j).trans (by simp [Qualifies]))
    refine ⟨groupSel_eq_none_iff Num.real_ordered, fun j => ?_⟩
    simp [groupSel_eq_some_iff Num.real_ordered, FirstGreatest]

/-- Settles O51. -/
theorem raisingThresholdIsConservative : Obligations.RaisingThresholdIsConservative :=
  ⟨fun cos _ _ _ hthr => selectSymbol_of_raised (Num.f64With_ordered cos) hthr,
    fun _ _ _ hthr => selectSymbol_of_raised Num.real_ordered ((Num.real_ge_iff _ _).2 hthr)⟩

/-- Settles O53: an energy above 0 is at least a threshold of at most 0, so in each group some position qualifies. -/
theorem nonpositiveThresholdAlwaysDetects : Obligations.NonpositiveThresholdAlwaysDetects := by
  intro cos E thr l h hthr hlow hhigh
  have O := Num.f64With_ordered cos
  have selects {g : Group} {j : Fin 4} (hpos : F64.gt (E.get (g.cell j)) 0#64 = true) :
      ∃ i, groupSel (Num.f64With cos) E g thr = some i := by
    have hq : Qualifies (Num.f64With cos) E g thr j := ⟨hpos, O.ge_trans (O.ge_of_gt hpos) hthr⟩
    exact Option.ne_none_iff_exists'.1 (mt (groupSel_eq_none_iff O).1 fun hnone => hnone j hq)
  obtain ⟨l', hl'⟩ := selects hlow
  obtain ⟨h', hh'⟩ := selects hhigh
  rw [resultOf_detect, (selectSymbol_eq_some_iff _).2 ⟨l', h', hl', hh', rfl⟩]
  rfl

end Sys2Proof.Machine
end

section
/-! SUPPORT. The family `40_filter_bank.md`, "Consequences and numerics", with the coefficients of `10_state.md` section
3: NaNs, the clamp and the first sample under `F64` (R103, R111, R113), and under `REAL` the sign of the energies and
what scaling a frame does to them (R110 to R112). -/

namespace Sys2Proof

/-! ## Zeros and signs under `F64` -/

theorem F64.add_isZero_right {a b : F64} (ha : F64.isFinite a = true) (h0 : F64.isZero a = false)
    (hb : F64.isZero b = true) : F64.add a b = a := by
  rw [F64.add_of_not_isNaN (F64.isNaN_of_isFinite ha) (F64.isNaN_of_isFinite (F64.isFinite_of_isZero hb)),
    F64.addCore_isZero_right .add ha h0 hb]

theorem F64.add_isZero_left {a b : F64} (ha : F64.isZero a = true) (hb : F64.isFinite b = true)
    (h0 : F64.isZero b = false) : F64.add a b = b := by
  rw [F64.add_of_not_isNaN (F64.isNaN_of_isFinite (F64.isFinite_of_isZero ha)) (F64.isNaN_of_isFinite hb),
    F64.addCore_isZero_left .add hb h0 ha]

theorem F64.sub_isZero_right {a b : F64} (ha : F64.isFinite a = true) (h0 : F64.isZero a = false)
    (hb : F64.isZero b = true) : F64.sub a b = a := by
  rw [F64.sub_of_not_isNaN (F64.isNaN_of_isFinite ha) (F64.isNaN_of_isFinite (F64.isFinite_of_isZero hb)),
    F64.addCore_isZero_right .sub ha h0 (F64.isZero_neg hb)]

theorem F64.isZero_mul {a b : F64} (ha : F64.isFinite a = true) (hb : F64.isFinite b = true)
    (h : F64.isZero a = true ∨ F64.isZero b = true) : F64.isZero (F64.mul a b) = true := by
  rw [F64.mul_isZero ha hb h, F64.isZero_ofMag_zero]

/-- An infinity is no zero, so that its product with another is no NaN. -/
theorem F64.isZero_of_isInf {a : F64} (h : F64.isInf a = true) : F64.isZero a = false := by
  have hmag : F64.mag a = F64.infMag := of_decide_eq_true h
  exact decide_eq_false (hmag ▸ by decide)

/-- A square is no NaN, and not negative. -/
theorem F64.mul_self_nonneg {x : F64} (hx : F64.isNaN x = false) :
    F64.isNaN (F64.mul x x) = false ∧ F64.sign (F64.mul x x) = false := by
  cases hinf : F64.isInf x with
  | true => simp [F64.mul, hx, hinf, F64.isZero_of_isInf hinf]; decide
  | false => simp [F64.mul, hx, hinf]

/-- The sum of two numbers that are not negative is no NaN, and not negative. -/
theorem F64.add_nonneg {a b : F64} (ha : F64.isNaN a = false) (hb : F64.isNaN b = false) (hsa : F64.sign a = false)
    (hsb : F64.sign b = false) : F64.isNaN (F64.add a b) = false ∧ F64.sign (F64.add a b) = false := by
  rw [F64.add_of_not_isNaN ha hb]
  have hunits (c : F64) (hc : F64.sign c = false) : F64.signedUnits c = F64.units c := by simp [F64.signedUnits, hc]
  have hsum : ¬ F64.signedUnits a + F64.signedUnits b < 0 := by rw [hunits a hsa, hunits b hsb]; omega
  have hzero : F64.isNaN (F64.ofMag false 0) = false := by decide
  cases hia : F64.isInf a with
  | true => simp [F64.addCore, hia, hsa, hsb, ha]
  | false =>
    cases hib : F64.isInf b with
    | true => simp [F64.addCore, hia, hib, hb, hsb]
    | false =>
      simp only [F64.addCore, hia, hib, hsa, hsb, Bool.false_eq_true, if_false, decide_eq_false hsum]
      split <;> simp [hzero]

theorem F64.ofNat_one : F64.ofNat 1 = 0x3FF0000000000000#64 := by
  rw [F64.ofNat, Nat.one_mul, ← Nat.mul_one F64.scale, ← F64.units_one, F64.round_units _ _ _ Nat.one_pos (by decide)]
  decide

end Sys2Proof

namespace Sys2Proof.Machine

/-! ## A cell under `F64` -/

section f64
variable (cos : F64 → F64) (c x y : F64) (cell : Cell F64)

theorem cellOutput_f64With :
    cellOutput (Num.f64With cos) c x cell = F64.sub (F64.add x (F64.mul c cell.s1)) cell.s2 := by
  rw [cellOutput, Num.f64With_sub, Num.f64With_add, Num.f64With_mul]

theorem cellPower_f64With :
    cellPower (Num.f64With cos) c y cell =
      F64.sub (F64.add (F64.mul cell.s2 cell.s2) (F64.mul y y)) (F64.mul (F64.mul c y) cell.s2) := by
  rw [cellPower, Num.f64With_sub, Num.f64With_add, Num.f64With_mul]

theorem isNaN_cellOutput (h : F64.isNaN cell.s1 = true ∨ F64.isNaN cell.s2 = true) :
    F64.isNaN (cellOutput (Num.f64With cos) c x cell) = true := by
  rw [cellOutput_f64With]
  rcases h with h | h
  · exact F64.sub_isNaN_of (.inl (F64.add_isNaN_of (.inr (F64.mul_isNaN_of (.inr h)))))
  · exact F64.sub_isNaN_of (.inr h)

theorem isNaN_cellPower (hy : F64.isNaN y = true) :
    F64.isNaN (cellPower (Num.f64With cos) c y cell) = true := by
  rw [cellPower_f64With]
  exact F64.sub_isNaN_of (.inl (F64.add_isNaN_of (.inr (F64.mul_isNaN_of (.inl hy)))))

theorem cellTotalPower_f64With :
    cellTotalPower (Num.f64With cos) x cell =
      if F64.isZero (F64.add cell.tp (F64.mul x x)) = true then 0x3FF0000000000000#64
      else F64.add cell.tp (F64.mul x x) := by
  rw [cellTotalPower_eq_ite, Num.f64With_isZero, Num.f64With_one, Num.f64With_add, Num.f64With_mul]

theorem cellStep_en_f64With :
    (cellStep (Num.f64With cos) c x cell).en =
      F64.div (F64.div (cellPower (Num.f64With cos) c (cellOutput (Num.f64With cos) c x cell) cell)
        (cellTotalPower (Num.f64With cos) x cell)) (F64.ofNat (cell.cnt + 1)) := by
  rw [cellStep_en, Num.f64With_div, Num.f64With_ofNat]

end f64

/-! ## A cell under `REAL` -/

section real
variable {c x y a : ℝ} {cell cell' : Cell ℝ}

theorem cellOutput_real : cellOutput Num.real c x cell = x + c * cell.s1 - cell.s2 := rfl

theorem cellPower_real :
    cellPower Num.real c y cell = cell.s2 * cell.s2 + y * y - c * y * cell.s2 := rfl

theorem cellTotalPower_real :
    cellTotalPower Num.real x cell = if cell.tp + x * x = 0 then 1 else cell.tp + x * x := by
  simp [cellTotalPower_eq_ite]

theorem cellStep_en_real :
    (cellStep Num.real c x cell).en =
      cellPower Num.real c (cellOutput Num.real c x cell) cell / cellTotalPower Num.real x cell / (cell.cnt + 1 : ℕ) :=
  rfl

theorem cellTotalPower_real_pos (h : 0 ≤ cell.tp) : 0 < cellTotalPower Num.real x cell := by
  have hsum : 0 ≤ cell.tp + x * x := add_nonneg h (mul_self_nonneg x)
  rw [cellTotalPower_real]
  split
  case isTrue => exact one_pos
  case isFalse hne => exact lt_of_le_of_ne hsum (Ne.symm hne)

theorem cellTotalPower_real_of_pos (h : 0 < cell.tp + x * x) :
    cellTotalPower Num.real x cell = cell.tp + x * x := by
  rw [cellTotalPower_real, if_neg h.ne']

/-- With a coefficient between -2 and 2 the power is a mean of `(y - s2)^2` and `(y + s2)^2` (R110). -/
theorem cellPower_real_nonneg (hlow : -2 ≤ c) (hhigh : c ≤ 2) : 0 ≤ cellPower Num.real c y cell := by
  have hmean : cellPower Num.real c y cell =
      (2 + c) / 4 * (y - cell.s2) ^ 2 + (2 - c) / 4 * (y + cell.s2) ^ 2 := by rw [cellPower_real]; ring
  have hplus : 0 ≤ (2 + c) / 4 := by linarith
  have hminus : 0 ≤ (2 - c) / 4 := by linarith
  rw [hmean]
  positivity

theorem cellStep_en_real_nonneg (hlow : -2 ≤ c) (hhigh : c ≤ 2) (htp : 0 ≤ cell.tp) :
    0 ≤ (cellStep Num.real c x cell).en :=
  div_nonneg (div_nonneg (cellPower_real_nonneg hlow hhigh) (cellTotalPower_real_pos htp).le) (Nat.cast_nonneg _)

end real

theorem coeff_real_eq (cfg : Cfg ℝ) (k : Fin 8) :
    coeff Num.real cfg k = 2 * Real.cos (2 * Real.pi * (freq k : ℝ) / cfg.sampleRate) := rfl

theorem coeff_real_bounds (cfg : Cfg ℝ) (k : Fin 8) : -2 ≤ coeff Num.real cfg k ∧ coeff Num.real cfg k ≤ 2 := by
  have hlow := Real.neg_one_le_cos (2 * Real.pi * (freq k : ℝ) / cfg.sampleRate)
  have hhigh := Real.cos_le_one (2 * Real.pi * (freq k : ℝ) / cfg.sampleRate)
  rw [coeff_real_eq]
  constructor <;> linarith

/-! ## Induction over the samples of a frame -/

section frame
variable {α : Type} {N : Num α} {cfg : Cfg α} {n : Nat}

/-- What every sample keeps, at positions within the frame, the frame keeps. -/
theorem feedFrame_induction {P : Bank (Cell α) → Prop} (xs : List α) (i : Nat) (hn : i + xs.length ≤ n)
    (hstep : ∀ x ∈ xs, ∀ j < n, ∀ cells, P cells → P (bankStep N cfg (windowed N x j n) cells))
    (cells : Bank (Cell α)) (h : P cells) : P (feedFrame N cfg n i xs cells) := by
  induction xs generalizing i cells with
  | nil => exact h
  | cons x xs ih =>
    rw [List.length_cons] at hn
    exact ih (i + 1) (by omega) (fun x' hx' => hstep x' (List.mem_cons_of_mem x hx')) _
      (hstep x List.mem_cons_self i (by omega) cells h)

/-- Two frames, one the image of the other sample by sample: a relation of their cells that every sample keeps. -/
theorem feedFrame_map_induction {R : Bank (Cell α) → Bank (Cell α) → Prop} {f : α → α}
    (hstep : ∀ x j cells cells', R cells cells' →
      R (bankStep N cfg (windowed N x j n) cells) (bankStep N cfg (windowed N (f x) j n) cells'))
    (xs : List α) (i : Nat) (cells cells' : Bank (Cell α)) (h : R cells cells') :
    R (feedFrame N cfg n i xs cells) (feedFrame N cfg n i (xs.map f) cells') := by
  induction xs generalizing i cells cells' with
  | nil => exact h
  | cons x xs ih => exact ih (i + 1) _ _ (hstep x i cells cells' h)

end frame

/-! ## Energies of a frame under `REAL` -/

/-- No energy and no total power is negative. -/
def NonnegativeCells (cells : Bank (Cell ℝ)) : Prop := ∀ k : Fin 8, 0 ≤ (cells.get k).tp ∧ 0 ≤ (cells.get k).en

theorem nonnegativeCells_bankReset : NonnegativeCells (bankReset Num.real) := fun k => by simp

theorem NonnegativeCells.bankStep {cells : Bank (Cell ℝ)} (h : NonnegativeCells cells) (cfg : Cfg ℝ) (x : ℝ) :
    NonnegativeCells (bankStep Num.real cfg x cells) := fun k => by
  obtain ⟨hlow, hhigh⟩ := coeff_real_bounds cfg k
  rw [bankStep_get]
  exact ⟨(cellTotalPower_real_pos (h k).1).le, cellStep_en_real_nonneg hlow hhigh (h k).1⟩

theorem frameEnergies_real_nonneg (cfg : Cfg ℝ) (xs : List ℝ) (k : Fin 8) :
    0 ≤ (frameEnergies Num.real cfg xs).get k := by
  have h := feedFrame_induction (N := Num.real) (cfg := cfg) xs 0 (Nat.zero_add _).le
    (fun _ _ _ _ _ h => h.bankStep cfg _) _ nonnegativeCells_bankReset
  rw [frameEnergies, bankEnergies_get]
  exact (h k).2

/-! ## Scaling a frame under `REAL` -/

/-- A cell after the samples `a * x` beside the cell after the samples `x`, total power and energy aside. -/
structure Cell.ScaledBy (a : ℝ) (cell cell' : Cell ℝ) : Prop where
  s1 : cell'.s1 = a * cell.s1
  s2 : cell'.s2 = a * cell.s2
  cnt : cell'.cnt = cell.cnt

section scaling
variable {a c x y : ℝ} {cell cell' : Cell ℝ}

theorem windowed_real_mul (i n : Nat) : windowed Num.real (a * x) i n = a * windowed Num.real x i n :=
  mul_assoc a x _

theorem Cell.ScaledBy.cellOutput (h : cell.ScaledBy a cell') :
    cellOutput Num.real c (a * x) cell' = a * cellOutput Num.real c x cell := by
  rw [cellOutput_real, cellOutput_real, h.s1, h.s2]
  ring

theorem Cell.ScaledBy.cellPower (h : cell.ScaledBy a cell') :
    cellPower Num.real c (a * y) cell' = a ^ 2 * cellPower Num.real c y cell := by
  rw [cellPower_real, cellPower_real, h.s2]
  ring

theorem Cell.ScaledBy.cellStep (h : cell.ScaledBy a cell') :
    (cellStep Num.real c x cell).ScaledBy a (cellStep Num.real c (a * x) cell') where
  s1 := h.cellOutput
  s2 := h.s1
  cnt := congrArg (· + 1) h.cnt

theorem Cell.ScaledBy.cellStep_en (h : cell.ScaledBy a cell') :
    (Machine.cellStep Num.real c (a * x) cell').en =
      a ^ 2 * Machine.cellPower Num.real c (Machine.cellOutput Num.real c x cell) cell /
        cellTotalPower Num.real (a * x) cell' / (cell.cnt + 1 : ℕ) := by
  rw [cellStep_en_real, h.cellOutput, h.cellPower, h.cnt]

/-- Once a sample other than 0 has been fed no clamp parts the total powers, and the energies are the same. -/
structure Cell.SameEnergy (a : ℝ) (cell cell' : Cell ℝ) : Prop where
  scaled : cell.ScaledBy a cell'
  tp : cell'.tp = a ^ 2 * cell.tp
  tp_pos : 0 < cell.tp
  en : cell'.en = cell.en

theorem Cell.ScaledBy.sameEnergy_cellStep (h : cell.ScaledBy a cell') (ha : a ≠ 0) (htp : cell'.tp = a ^ 2 * cell.tp)
    (hpos : 0 < cell.tp + x * x) :
    (Machine.cellStep Num.real c x cell).SameEnergy a (Machine.cellStep Num.real c (a * x) cell') := by
  have ha2 : 0 < a ^ 2 := by positivity
  have hsum : cell'.tp + a * x * (a * x) = a ^ 2 * (cell.tp + x * x) := by rw [htp]; ring
  have ht := cellTotalPower_real_of_pos hpos
  have ht' : cellTotalPower Num.real (a * x) cell' = a ^ 2 * (cell.tp + x * x) := by
    rw [cellTotalPower_real_of_pos (by rw [hsum]; positivity), hsum]
  exact
    { scaled := h.cellStep
      tp := by rw [cellStep_tp, cellStep_tp, ht, ht']
      tp_pos := by rwa [cellStep_tp, ht]
      en := by rw [h.cellStep_en, ht', cellStep_en_real, ht, mul_div_mul_left _ _ ha2.ne'] }

theorem Cell.sameEnergy_first (ha : a ≠ 0) (hx : x ≠ 0) :
    (Machine.cellStep Num.real c x (Cell.reset 0)).SameEnergy a
      (Machine.cellStep Num.real c (a * x) (Cell.reset 0)) := by
  have hpos : 0 < (Cell.reset (0 : ℝ)).tp + x * x := by simpa using hx
  exact Cell.ScaledBy.sameEnergy_cellStep ⟨by simp, by simp, rfl⟩ ha (by simp) hpos

theorem Cell.SameEnergy.cellStep (h : cell.SameEnergy a cell') (ha : a ≠ 0) :
    (Machine.cellStep Num.real c x cell).SameEnergy a (Machine.cellStep Num.real c (a * x) cell') :=
  h.scaled.sameEnergy_cellStep ha h.tp (add_pos_of_pos_of_nonneg h.tp_pos (mul_self_nonneg x))

end scaling

/-- What scaling leaves of two frames that may begin with zeros: the energies of all eight cells differ by one positive
factor, since the total powers, which the clamp may have parted, are shared by the cells (R27 (a)). -/
structure ProportionalCells (a : ℝ) (cells cells' : Bank (Cell ℝ)) : Prop where
  scaled : ∀ k, (cells.get k).ScaledBy a (cells'.get k)
  nonneg : NonnegativeCells cells
  nonneg' : NonnegativeCells cells'
  tp_shared : ∀ j k : Fin 8, (cells.get j).tp = (cells.get k).tp
  tp_shared' : ∀ j k : Fin 8, (cells'.get j).tp = (cells'.get k).tp
  en : ∃ r : ℝ, 0 < r ∧ ∀ k, (cells'.get k).en = r * (cells.get k).en

theorem proportionalCells_bankReset (a : ℝ) : ProportionalCells a (bankReset Num.real) (bankReset Num.real) where
  scaled k := ⟨by simp, by simp, rfl⟩
  nonneg := nonnegativeCells_bankReset
  nonneg' := nonnegativeCells_bankReset
  tp_shared j k := by simp
  tp_shared' j k := by simp
  en := ⟨1, one_pos, fun k => by simp⟩

theorem ProportionalCells.bankStep {a : ℝ} (ha : a ≠ 0) {cells cells' : Bank (Cell ℝ)}
    (h : ProportionalCells a cells cells') (cfg : Cfg ℝ) (x : ℝ) :
    ProportionalCells a (bankStep Num.real cfg x cells) (bankStep Num.real cfg (a * x) cells') where
  scaled k := by
    rw [bankStep_get, bankStep_get]
    exact (h.scaled k).cellStep
  nonneg := h.nonneg.bankStep cfg x
  nonneg' := h.nonneg'.bankStep cfg (a * x)
  tp_shared := bankStep_tp_shared Num.real cfg x h.tp_shared
  tp_shared' := bankStep_tp_shared Num.real cfg (a * x) h.tp_shared'
  en := by
    have ht (k : Fin 8) := cellTotalPower_congr Num.real x (h.tp_shared k 0)
    have ht' (k : Fin 8) := cellTotalPower_congr Num.real (a * x) (h.tp_shared' k 0)
    have hpos := cellTotalPower_real_pos (x := x) (h.nonneg 0).1
    have hpos' := cellTotalPower_real_pos (x := a * x) (h.nonneg' 0).1
    refine ⟨a ^ 2 * cellTotalPower Num.real x (cells.get 0) / cellTotalPower Num.real (a * x) (cells'.get 0),
      by positivity, fun k => ?_⟩
    rw [bankStep_get, bankStep_get, (h.scaled k).cellStep_en, cellStep_en_real, ht k, ht' k]
    generalize cellTotalPower Num.real x (cells.get 0) = t at *
    generalize cellTotalPower Num.real (a * x) (cells'.get 0) = t' at *
    field_simp

/-- With a threshold of at most 0, energies that are not negative and differ by a positive factor select alike. -/
theorem groupSel_real_of_proportional {E E' : Bank ℝ} {thr r : ℝ} (hthr : thr ≤ 0) (hr : 0 < r)
    (hE : ∀ k, 0 ≤ E.get k) (hE' : ∀ k, E'.get k = r * E.get k) (g : Group) :
    groupSel Num.real E' g thr = groupSel Num.real E g thr := by
  have hqual (j : Fin 4) : Qualifies Num.real E' g thr j ↔ Qualifies Num.real E g thr j := by
    have hge := hthr.trans (hE (g.cell j))
    have hge' := hthr.trans (mul_nonneg hr.le (hE (g.cell j)))
    simp [Qualifies, hE', hr, hge, hge']
  ext j
  rw [groupSel_eq_some_iff Num.real_ordered, groupSel_eq_some_iff Num.real_ordered]
  simp [FirstGreatest, hqual, hE', hr]

/-! ## The obligations -/

/-- Settles O33: the formula is the definition, and a cosine lies between -1 and 1. -/
theorem coefficientTable : Obligations.CoefficientTable := by
  refine ⟨by decide, fun α N cfg k => ⟨rfl, fun cfg' h => ?_, fun b => rfl⟩, fun cfg k =>
    ⟨coeff_real_eq cfg k, coeff_real_bounds cfg k⟩⟩
  rw [coeff, coeff, h]

/-- Settles O36: the clamp puts 1 in the place of a zero sum. -/
theorem clampPreventsZeroDivisor : Obligations.ClampPreventsZeroDivisor := by
  intro cos x cell
  rw [cellTotalPower_f64With]
  cases h : F64.isZero (F64.add cell.tp (F64.mul x x)) with
  | true =>
    rw [if_pos rfl]
    exact ⟨by decide, fun h' => by contradiction⟩
  | false => simp [h]

/-- Settles O37: a NaN goes through each operation of R102. -/
theorem naNStaysInCell : Obligations.NaNStaysInCell := by
  intro cos c x cell h
  have hy := isNaN_cellOutput cos c x cell h
  rw [cellStep_s1, cellStep_en_f64With]
  exact ⟨hy, F64.div_isNaN_of (.inl (F64.div_isNaN_of (.inl (isNaN_cellPower cos c _ cell hy))))⟩

/-- Settles O38: a sum of a total power and a square, neither negative, is neither negative nor a NaN, and nor is the 1
of the clamp. -/
theorem totalPowerNeverNaN : Obligations.TotalPowerNeverNaN := by
  intro cos x cell hx htp hsign
  obtain ⟨hsq, hsqsign⟩ := F64.mul_self_nonneg hx
  rw [cellTotalPower_f64With]
  split
  · decide
  · exact F64.add_nonneg htp hsq hsign hsqsign

/-- Settles O39: from the reset state every product with a field of the cell is a zero, which sums leave exact. -/
theorem firstSampleF64 : Obligations.FirstSampleF64 := by
  intro cos c x hc hx hcx hsq hsq0
  have h0 : F64.isZero (0#64 : F64) = true := by decide
  have hzero {a : F64} (ha : F64.isFinite a = true) : F64.isZero (F64.mul a 0#64) = true :=
    F64.isZero_mul ha (by decide) (.inr h0)
  have hx0 : F64.isZero x = false :=
    Bool.eq_false_iff.2 fun h => by simp [F64.isZero_mul hx hx (.inl h)] at hsq0
  have hy : cellOutput (Num.f64With cos) c x (Cell.reset 0#64) = x := by
    rw [cellOutput_f64With, Cell.reset_s1, Cell.reset_s2, F64.add_isZero_right hx hx0 (hzero hc),
      F64.sub_isZero_right hx hx0 h0]
  have hp : cellPower (Num.f64With cos) c x (Cell.reset 0#64) = F64.mul x x := by
    rw [cellPower_f64With, Cell.reset_s2, F64.add_isZero_left (hzero (by decide)) hsq hsq0,
      F64.sub_isZero_right hsq hsq0 (hzero hcx)]
  have ht : cellTotalPower (Num.f64With cos) x (Cell.reset 0#64) = F64.mul x x := by
    rw [cellTotalPower_f64With, Cell.reset_tp, F64.add_isZero_left h0 hsq hsq0, hsq0, if_neg Bool.false_ne_true]
  have hen : F64.div (F64.div (F64.mul x x) (F64.mul x x)) (F64.ofNat 1) = 0x3FF0000000000000#64 := by
    rw [F64.div_self hsq hsq0, F64.ofNat_one, F64.div_self (by decide) (by decide)]
  rw [cellStep_eq_mk, hy, hp, ht]
  simp [hen]

/-- Settles O40. -/
theorem firstSampleReal : Obligations.FirstSampleReal := by
  intro c x
  rw [cellStep_eq_mk, cellTotalPower_real]
  by_cases hx : x = 0
  · simp [hx, cellOutput_real, cellPower_real]
  · simp [hx, cellOutput_real, cellPower_real]

/-- Settles O41. -/
theorem realEnergiesNonnegative : Obligations.RealEnergiesNonnegative := frameEnergies_real_nonneg

/-- Settles O42: the first sample leaves equal energies and total powers in the proportion `a ^ 2`, which the others
keep. -/
theorem scalingKeepsEnergies : Obligations.ScalingKeepsEnergies := by
  intro cfg a x xs ha hx
  have hframe := feedFrame_map_induction (N := Num.real) (cfg := cfg) (n := xs.length + 1) (f := fun y => a * y)
    (R := fun cells cells' => ∀ k, (cells.get k).SameEnergy a (cells'.get k))
    (fun y j cells cells' h k => by
      rw [bankStep_get, bankStep_get, windowed_real_mul]
      exact (h k).cellStep ha)
    xs 1 (bankStep Num.real cfg (windowed Num.real x 0 (xs.length + 1)) (bankReset Num.real))
    (bankStep Num.real cfg (windowed Num.real (a * x) 0 (xs.length + 1)) (bankReset Num.real))
    (fun k => by
      rw [bankStep_get, bankStep_get, bankReset_get, windowed_real_mul]
      exact Cell.sameEnergy_first ha (windowed_real_ne_zero hx _ _))
  refine Bank.ext_get fun k => ?_
  rw [frameEnergies, frameEnergies, bankEnergies_get, bankEnergies_get, List.length_map]
  exact (hframe k).en

/-- Settles O43: the energies differ by one positive factor, which the selection at a threshold of at most 0 does not
see. -/
theorem scalingKeepsSymbol : Obligations.ScalingKeepsSymbol := by
  intro cfg a xs ha hthr
  have hframe := feedFrame_map_induction (N := Num.real) (cfg := cfg) (n := xs.length) (f := fun y => a * y)
    (R := ProportionalCells a)
    (fun y j cells cells' h => by
      rw [windowed_real_mul]
      exact h.bankStep ha cfg _)
    xs 0 _ _ (proportionalCells_bankReset a)
  obtain ⟨r, hr, hen⟩ := hframe.en
  refine selectSymbol_congr (groupSel_real_of_proportional hthr hr (frameEnergies_real_nonneg cfg xs) fun k => ?_)
  rw [frameEnergies, frameEnergies, bankEnergies_get, bankEnergies_get, List.length_map, hen]

end Sys2Proof.Machine
end

section
/-! SUPPORT. The family `43_decoder_commands.md`, section 7: all-zero frames (R169), and one buffer under two thresholds
(R172). -/

namespace Sys2Proof

/-! ## Sums, products and quotients of zeros under `F64` -/

section zeros
variable {a b : F64}

theorem F64.add_zeros (ha : F64.isZero a = true) (hb : F64.isZero b = true) :
    F64.add a b = F64.ofMag (F64.sign a && F64.sign b) 0 := by
  rw [F64.add_of_not_isNaN (F64.isNaN_of_isFinite (F64.isFinite_of_isZero ha))
    (F64.isNaN_of_isFinite (F64.isFinite_of_isZero hb)), F64.addCore_zeros .add ha hb]

theorem F64.sub_zeros (ha : F64.isZero a = true) (hb : F64.isZero b = true) :
    F64.sub a b = F64.ofMag (F64.sign a && !F64.sign b) 0 := by
  rw [F64.sub_of_not_isNaN (F64.isNaN_of_isFinite (F64.isFinite_of_isZero ha))
    (F64.isNaN_of_isFinite (F64.isFinite_of_isZero hb)), F64.addCore_zeros .sub ha (F64.isZero_neg hb), F64.sign_neg]

theorem F64.isZero_add (ha : F64.isZero a = true) (hb : F64.isZero b = true) : F64.isZero (F64.add a b) = true := by
  rw [F64.add_zeros ha hb, F64.isZero_ofMag_zero]

theorem F64.isZero_sub (ha : F64.isZero a = true) (hb : F64.isZero b = true) : F64.isZero (F64.sub a b) = true := by
  rw [F64.sub_zeros ha hb, F64.isZero_ofMag_zero]

theorem F64.ofMag_false_zero : F64.ofMag false 0 = 0#64 := by decide

/-- The square of a zero of either sign is `+0`. -/
theorem F64.mul_self_of_isZero (ha : F64.isZero a = true) : F64.mul a a = 0#64 := by
  have hfin := F64.isFinite_of_isZero ha
  rw [F64.mul_isZero hfin hfin (.inl ha), bne_self_eq_false, F64.ofMag_false_zero]

theorem F64.zero_add_zero : F64.add 0#64 0#64 = 0#64 := by
  rw [F64.add_zeros (by decide) (by decide), F64.sign_zero, Bool.and_self, F64.ofMag_false_zero]

theorem F64.zero_sub_of_isZero (hb : F64.isZero b = true) : F64.sub 0#64 b = 0#64 := by
  rw [F64.sub_zeros (by decide) hb, F64.sign_zero, Bool.false_and, F64.ofMag_false_zero]

theorem F64.one_add_zero : F64.add 0x3FF0000000000000#64 0#64 = 0x3FF0000000000000#64 :=
  F64.add_isZero_right (by decide) (by decide) (by decide)

theorem F64.zero_div_one : F64.div 0#64 0x3FF0000000000000#64 = 0#64 := by
  rw [← F64.ofNat_one, F64.zero_div_ofNat_succ]

end zeros

end Sys2Proof

namespace Sys2Proof.Machine

/-! ## All-zero frames under `F64` -/

/-- A cell that has been fed nothing but zeros: the clamp makes the total power 1 at the first of them. -/
structure Cell.Silent (cell : Cell F64) : Prop where
  s1 : F64.isZero cell.s1 = true
  s2 : F64.isZero cell.s2 = true
  tp : cell.tp = 0#64 ∨ cell.tp = 0x3FF0000000000000#64
  en : cell.en = 0#64

theorem Cell.silent_reset : (Cell.reset (0#64 : F64)).Silent := ⟨by decide, by decide, .inl rfl, rfl⟩

section silent
variable (cos : F64 → F64) {c x : F64} {cell : Cell F64}

theorem Cell.Silent.cellOutput (h : cell.Silent) (hc : F64.isFinite c = true) (hx : F64.isZero x = true) :
    F64.isZero (cellOutput (Num.f64With cos) c x cell) = true := by
  rw [cellOutput_f64With]
  exact F64.isZero_sub (F64.isZero_add hx (F64.isZero_mul hc (F64.isFinite_of_isZero h.s1) (.inr h.s1))) h.s2

theorem Cell.Silent.cellPower (h : cell.Silent) (hc : F64.isFinite c = true) {y : F64} (hy : F64.isZero y = true) :
    cellPower (Num.f64With cos) c y cell = 0#64 := by
  have hcy := F64.isZero_mul hc (F64.isFinite_of_isZero hy) (.inr hy)
  have hcys := F64.isZero_mul (F64.isFinite_of_isZero hcy) (F64.isFinite_of_isZero h.s2) (.inr h.s2)
  rw [cellPower_f64With, F64.mul_self_of_isZero h.s2, F64.mul_self_of_isZero hy, F64.zero_add_zero,
    F64.zero_sub_of_isZero hcys]

theorem Cell.Silent.cellTotalPower (h : cell.Silent) (hx : F64.isZero x = true) :
    cellTotalPower (Num.f64With cos) x cell = 0x3FF0000000000000#64 := by
  rw [cellTotalPower_f64With, F64.mul_self_of_isZero hx]
  rcases h.tp with htp | htp <;> rw [htp]
  · rw [F64.zero_add_zero, if_pos (by decide)]
  · rw [F64.one_add_zero, ite_self]

theorem Cell.Silent.cellStep (h : cell.Silent) (hc : F64.isFinite c = true) (hx : F64.isZero x = true) :
    (cellStep (Num.f64With cos) c x cell).Silent where
  s1 := h.cellOutput cos hc hx
  s2 := h.s1
  tp := .inr (h.cellTotalPower cos hx)
  en := by
    rw [cellStep_en_f64With, h.cellPower cos hc (h.cellOutput cos hc hx), h.cellTotalPower cos hx, F64.zero_div_one,
      F64.zero_div_ofNat_succ]

end silent

/-! ## All-zero frames in any number system with the laws `NUM_ZERO_LAWS` -/

section laws
variable {α : Type} {N : Num α}

/-- A cell that has been fed nothing but zeros; of its total power only the clamp is used. -/
structure Cell.ZeroFed (N : Num α) (cell : Cell α) : Prop where
  s1 : N.isZero cell.s1 = true
  s2 : N.isZero cell.s2 = true
  en : N.isZero cell.en = true

theorem NumZeroLaws.zeroFed_reset (L : NumZeroLaws N) : (Cell.reset N.zero).ZeroFed N :=
  ⟨L.zero_isZero, L.zero_isZero, L.zero_isZero⟩

theorem NumZeroLaws.cellTotalPower_not_isZero (L : NumZeroLaws N) (x : α) (cell : Cell α) :
    N.isZero (cellTotalPower N x cell) = false := by
  rw [cellTotalPower_eq_ite]
  split
  case isTrue => exact L.one_not_isZero
  case isFalse h => exact Bool.eq_false_iff.2 h

theorem NumZeroLaws.zeroFed_cellStep (L : NumZeroLaws N) {cell : Cell α} (h : cell.ZeroFed N) (c : α) {x : α}
    (hx : N.isZero x = true) : (cellStep N c x cell).ZeroFed N := by
  have hy : N.isZero (cellOutput N c x cell) = true :=
    L.zero_sub_zero _ _ (L.zero_add_zero _ _ hx (L.mul_zero _ _ h.s1)) h.s2
  have hp : N.isZero (cellPower N c (cellOutput N c x cell) cell) = true :=
    L.zero_sub_zero _ _ (L.zero_add_zero _ _ (L.zero_mul _ _ h.s2) (L.zero_mul _ _ hy)) (L.mul_zero _ _ h.s2)
  exact ⟨hy, h.s1, L.zero_div _ _ (L.zero_div _ _ hp (L.cellTotalPower_not_isZero x cell)) (L.ofNat_succ_not_isZero _)⟩

theorem NumZeroLaws.isZero_frameEnergies (L : NumZeroLaws N) (cfg : Cfg α) {xs : List α}
    (hxs : ∀ x ∈ xs, N.isZero x = true) (k : Fin 8) : N.isZero ((frameEnergies N cfg xs).get k) = true := by
  have h := feedFrame_induction (N := N) (cfg := cfg) (P := fun cells => ∀ k, (cells.get k).ZeroFed N) xs 0
    (Nat.zero_add _).le
    (fun x hx j _ cells h k => by
      rw [bankStep_get]
      exact L.zeroFed_cellStep (h k) _ (L.zero_mul _ _ (hxs x hx)))
    (bankReset N) (fun k => by rw [bankReset_get]; exact L.zeroFed_reset)
  rw [frameEnergies, bankEnergies_get]
  exact (h k).en

theorem Num.real_zeroLaws : NumZeroLaws Num.real := by
  constructor <;> simp only [Num.real_isZero_iff, Num.real_isZero_eq_false_iff, Num.real_zero, Num.real_one,
    Num.real_ofNat, Num.real_mul, Num.real_add, Num.real_sub, Num.real_div]
  case one_not_isZero => exact one_ne_zero
  case ofNat_succ_not_isZero => exact fun n => Nat.cast_ne_zero.2 n.succ_ne_zero
  case zero_mul => rintro a b rfl; exact zero_mul b
  case mul_zero => rintro a b rfl; exact mul_zero a
  case zero_add_zero => rintro a b rfl rfl; exact add_zero 0
  case zero_sub_zero => rintro a b rfl rfl; exact sub_zero 0
  case zero_div => rintro a b rfl _; exact zero_div b
  case zero_not_gt_zero => rintro a b rfl rfl; exact decide_eq_false (lt_irrefl 0)

end laws

/-- Energies none of which is above 0 give no symbol, in any number system and under any threshold (R169). -/
theorem resultOf_of_not_gt {α : Type} {N : Num α} {E : Bank α} (h : ∀ k, N.gt (E.get k) N.zero = false) (thr : α) :
    resultOf N E thr = { detect := false, code := 0#4, char := 0x00#8, energy := E } :=
  resultOf_of_none (selectSymbol_eq_none_of_low (groupSel_eq_none_of_not_gt h))

/-! ## One buffer under two thresholds -/

section thresholds
variable {α : Type} (N : Num α) {cfg cfg' : Cfg α}

/-- `FB.SAMPLE` reads the sample rate of the configuration, through the coefficients, and nothing else of it (R24). -/
theorem bankStep_congr (h : cfg'.sampleRate = cfg.sampleRate) (x : α) (cells : Bank (Cell α)) :
    bankStep N cfg' x cells = bankStep N cfg x cells := by
  refine Bank.ext_get fun k => ?_
  rw [bankStep_get, bankStep_get, coeff, coeff, h]

theorem feedFrame_congr (h : cfg'.sampleRate = cfg.sampleRate) (n i : Nat) (xs : List α) (cells : Bank (Cell α)) :
    feedFrame N cfg' n i xs cells = feedFrame N cfg n i xs cells := by
  induction xs generalizing i cells with
  | nil => rfl
  | cons x xs ih => rw [feedFrame, feedFrame, bankStep_congr N h, ih]

theorem frameEnergies_congr (h : cfg'.sampleRate = cfg.sampleRate) (xs : List α) :
    frameEnergies N cfg' xs = frameEnergies N cfg xs := by
  rw [frameEnergies, frameEnergies, feedFrame_congr N h]

end thresholds

/-! ## The obligations -/

/-- Settles O55: fed nothing but zeros a cell stays silent. -/
theorem allZeroFrameF64 : Obligations.AllZeroFrameF64 := by
  intro cos cfg xs hcoeff hwin _ hxs
  have hsilent := feedFrame_induction (N := Num.f64With cos) (cfg := cfg) (n := xs.length)
    (P := fun cells => ∀ k, (cells.get k).Silent) xs 0 (Nat.zero_add _).le
    (fun x hx j hj cells h k => by
      have hxw : F64.isZero (windowed (Num.f64With cos) x j xs.length) = true :=
        F64.isZero_mul (F64.isFinite_of_isZero (hxs x hx)) (hwin j hj) (.inl (hxs x hx))
      rw [bankStep_get]
      exact (h k).cellStep cos (hcoeff k) hxw)
    (bankReset (Num.f64With cos)) (fun k => by rw [bankReset_get]; exact Cell.silent_reset)
  have henergy (k : Fin 8) : (frameEnergies (Num.f64With cos) cfg xs).get k = 0#64 := by
    rw [frameEnergies, bankEnergies_get, (hsilent k).en]
  have hnone (k : Fin 8) :
      (Num.f64With cos).gt ((frameEnergies (Num.f64With cos) cfg xs).get k) (Num.f64With cos).zero = false := by
    rw [henergy, Num.f64With_gt, Num.f64With_zero]
    decide
  rw [processBuffer, resultOf_of_not_gt hnone]
  exact ⟨henergy, rfl, resWord_noSymbol _⟩

/-- Settles O56: by the laws a cell fed nothing but zeros keeps a zero energy. -/
theorem allZeroFrameAnyNum : Obligations.AllZeroFrameAnyNum := by
  refine ⟨fun α N cfg xs L _ hxs => ?_, Num.real_zeroLaws⟩
  have henergy := L.isZero_frameEnergies cfg hxs
  rw [processBuffer, resultOf_of_not_gt fun k => L.zero_not_gt_zero _ _ (henergy k) L.zero_isZero]
  exact ⟨henergy, rfl⟩

/-- Settles O57: the energies do not depend on the threshold, and for given energies raising it is conservative. -/
theorem thresholdMonotoneOverFrames : Obligations.ThresholdMonotoneOverFrames := by
  intro cos cfg thr2 xs hthr
  have hrate : ({ cfg with energyThreshold := thr2 } : Cfg F64).sampleRate = cfg.sampleRate := rfl
  have henergies := frameEnergies_congr (Num.f64With cos) hrate xs
  rw [processBuffer, processBuffer, henergies, resultOf_energy, resultOf_energy]
  refine ⟨rfl, (selectSymbol_of_raised (Num.f64With_ordered cos) hthr).imp resultOf_congr fun hnone => ?_⟩
  rw [resultOf_of_none hnone]

end Sys2Proof.Machine
end

section
/-! SUPPORT. The family `43_decoder_commands.md`, sections 6 and 7, with `70_reset_and_hazards.md` section 3: the
commands of a frame are `processBuffer` (R168), a run forgets what was before it (R170, R175), and an unfinished frame waits
(R224). -/

namespace Sys2Proof.Machine

/-! ## Runs, step by step -/

theorem runSteps_succ {s t : State} (h : step s = .next t) (k : Nat) :
    runSteps (k + 1) s = (t.result.toList ++ (runSteps k t).1, (runSteps k t).2) := by
  rw [runSteps, h]

/-- From `s`, `k` steps emit the results `rs`, leave the block `b`, and leave `rest` to be presented. -/
def RunsTo (k : Nat) (s : State) (rs : List (Result F64)) (b : Block F64) (rest : List PortInput) : Prop :=
  ∃ t : State, runSteps k s = (rs, t) ∧ t.toBlock = b ∧ t.port = rest

section runs
variable {k : Nat} {s u : State} {rs : List (Result F64)} {b : Block F64} {rest : List PortInput}

theorem RunsTo.zero (hport : s.port = rest) : RunsTo 0 s [] s.toBlock rest := ⟨s, rfl, rfl, hport⟩

theorem RunsTo.succ (hstep : step s = .next u) (h : RunsTo k u rs b rest) :
    RunsTo (k + 1) s (u.result.toList ++ rs) b rest := by
  obtain ⟨t, hrun, hblock, hport⟩ := h
  exact ⟨t, by rw [runSteps_succ hstep, hrun], hblock, hport⟩

/-- A presented command, then the rest of the run from the state it leads to. -/
theorem RunsTo.command {i : Instr} {is : List Instr} (hport : s.port = present (i :: is) ++ rest)
    (hfits : i.PayloadFits s.cfg.lenW) (hexec : exec i { s with port := present is ++ rest } = .next u)
    (h : RunsTo k u rs b rest) : RunsTo (k + 1) s (u.result.toList ++ rs) b rest :=
  .succ ((step_of_port_eq_encode hfits hport).trans hexec) h

/-- A `NOP` leaves the run as it was (R161). -/
theorem RunsTo.nop {data : Payload} {is : List Instr} (hport : s.port = present (.nop data :: is) ++ rest)
    (h : RunsTo k { s with result := none, port := present is ++ rest } rs b rest) : RunsTo (k + 1) s rs b rest :=
  .command hport trivial (exec_nop _ data) h

end runs

/-! ## The commands of a frame -/

section nonNops
variable (data : Payload) (x : F64) (is : List Instr)

@[simp] theorem nonNops_nil : nonNops [] = [] := rfl
@[simp] theorem nonNops_nop : nonNops (.nop data :: is) = nonNops is := rfl
@[simp] theorem nonNops_beginFrame : nonNops (.beginFrame data :: is) = .beginFrame data :: nonNops is := rfl
@[simp] theorem nonNops_beginRsvbits : nonNops (.beginRsvbits data :: is) = .beginRsvbits data :: nonNops is := rfl
@[simp] theorem nonNops_sample : nonNops (.sample x :: is) = .sample x :: nonNops is := rfl
@[simp] theorem nonNops_rsvd : nonNops (.rsvd data :: is) = .rsvd data :: nonNops is := rfl

end nonNops

/-- A `FRAME` has samples, and no more of them than `LEN_W` bits can count (R79, R80). -/
theorem frameCommands_eq_some_iff {lenW : Nat} {xs : List F64} {is : List Instr} :
    frameCommands lenW xs = some is ↔
      xs ≠ [] ∧ xs.length < 2 ^ lenW ∧ is = .beginFrame (BitVec.ofNat 64 xs.length) :: xs.map .sample := by
  unfold frameCommands
  split
  case isTrue h =>
    refine iff_of_false (by simp) ?_
    rintro ⟨hne, hlt, _⟩
    exact h.elim hne (Nat.not_le.2 hlt)
  case isFalse h =>
    obtain ⟨hne, hlt⟩ := not_or.1 h
    simp [hne, Nat.not_le.1 hlt, eq_comm]

theorem runsTo_nops {rest : List PortInput} (cmds : List Instr) (s : State) (hcmds : nonNops cmds = [])
    (hport : s.port = present cmds ++ rest) : RunsTo cmds.length s [] s.toBlock rest := by
  induction cmds generalizing s with
  | nil => exact .zero hport
  | cons i is ih =>
    cases i with
    | nop data => exact .nop hport (ih _ hcmds rfl)
    | beginFrame data => simp at hcmds
    | beginRsvbits data => simp at hcmds
    | sample x => simp at hcmds
    | rsvd data => simp at hcmds

/-- The samples that remain of a frame, with `NOP`s between and after them, feed the cells and complete the frame (R163,
R164). -/
theorem runsTo_samples {rest : List PortInput} (cmds : List Instr) (s : State) (xs : List F64) (hm : s.mode = .acc)
    (hfcode : s.fcode = 0#3) (hne : xs ≠ []) (hlen : s.idx + xs.length = s.len)
    (hfin : ∀ x ∈ xs, F64.isFinite x = true) (hcmds : nonNops cmds = xs.map .sample)
    (hport : s.port = present cmds ++ rest) :
    RunsTo cmds.length s
      [resultOf Num.f64 (bankEnergies (feedFrame Num.f64 s.cfg s.len s.idx xs s.cells)) s.cfg.energyThreshold]
      (Block.resetState 0#64 s.cfg) rest := by
  induction cmds generalizing s xs with
  | nil => exact absurd (List.map_eq_nil_iff.1 hcmds.symm) hne
  | cons i is ih =>
    obtain ⟨x, xs, rfl⟩ := List.exists_cons_of_ne_nil hne
    rw [List.map_cons] at hcmds
    cases i with
    | nop data => exact .nop hport (ih _ (x :: xs) hm hfcode hne hlen hfin hcmds rfl)
    | beginFrame data => simp at hcmds
    | beginRsvbits data => simp at hcmds
    | rsvd data => simp at hcmds
    | sample y =>
      obtain ⟨hy, his⟩ := List.cons.inj hcmds
      obtain rfl := Instr.sample.inj hy
      have hx : F64.isFinite y = true := hfin y List.mem_cons_self
      rw [List.length_cons] at hlen
      by_cases hxs : xs = []
      · subst hxs
        have hlast : s.len ≤ s.idx + 1 := by simpa using hlen.ge
        have hblock : { Block.resetState (0#64 : F64) s.cfg with fcode := s.fcode } = Block.resetState 0#64 s.cfg := by
          rw [hfcode]
          rfl
        exact .command hport trivial
          (exec_sample_completes (s := { s with port := present is ++ rest }) hm hx hlast)
          (hblock ▸ runsTo_nops is _ his rfl)
      · have hlt : s.idx + 1 < s.len := by
          have := List.length_pos_iff.2 hxs
          omega
        exact .command hport trivial
          (exec_sample_advances (s := { s with port := present is ++ rest }) hm hx hlt)
          (ih _ xs hm hfcode hxs (by simp only; omega) (fun z hz => hfin z (List.mem_cons_of_mem y hz)) his rfl)

/-- `BEGIN` and the samples of a frame, with any `NOP`s, from the reset state (R162 to R164). -/
theorem runsTo_frame {rest : List PortInput} (cmds : List Instr) (s : State) (xs : List F64)
    (hreset : s.toBlock = Block.resetState 0#64 s.cfg) (hlenW : s.cfg.lenW ≤ 64) (hne : xs ≠ [])
    (hlen : xs.length < 2 ^ s.cfg.lenW) (hfin : ∀ x ∈ xs, F64.isFinite x = true)
    (hcmds : nonNops cmds = .beginFrame (BitVec.ofNat 64 xs.length) :: xs.map .sample)
    (hport : s.port = present cmds ++ rest) :
    RunsTo cmds.length s [processBuffer Num.f64 s.cfg xs] s.toBlock rest := by
  induction cmds generalizing s with
  | nil => simp at hcmds
  | cons i is ih =>
    cases i with
    | nop data => exact .nop hport (ih _ hreset hlenW hlen hcmds rfl)
    | beginRsvbits data => simp at hcmds
    | sample x => simp at hcmds
    | rsvd data => simp at hcmds
    | beginFrame data =>
      obtain ⟨hdata, his⟩ := List.cons.inj hcmds
      obtain rfl := Instr.beginFrame.inj hdata
      have h64 : xs.length < 2 ^ 64 := hlen.trans_le (Nat.pow_le_pow_right Nat.two_pos hlenW)
      have hN : (BitVec.ofNat 64 xs.length).toNat = xs.length := by rw [BitVec.toNat_ofNat, Nat.mod_eq_of_lt h64]
      have hpos : xs.length ≠ 0 := mt List.length_eq_zero_iff.1 hne
      have hidle : s.mode = .idle := by rw [hreset, Block.resetState_mode]
      have hfcode : s.fcode = 0#3 := by rw [hreset, Block.resetState_fcode]
      have hbegin := exec_beginFrame_of_idle (s := { s with port := present is ++ rest })
        (data := BitVec.ofNat 64 xs.length) hidle (hN.trans_lt hlen) (by rwa [hN])
      rw [hN] at hbegin
      rw [hreset]
      exact .command hport (hN.trans_lt hlen) hbegin
        (runsTo_samples is _ xs rfl hfcode hne (Nat.zero_add _) hfin his rfl)

/-! ## A run from its reset step on -/

/-- After its reset step a run has nothing left of the state before but the configuration (R170, R220). -/
theorem runSteps_reset (s : State) (k : Nat) (inputs : List PortInput) :
    runSteps (k + 1) { s with port := resetInput :: inputs } =
      runSteps k { toBlock := Block.resetState 0#64 s.cfg, result := none, port := inputs } :=
  runSteps_succ (step_of_port_eq_rst rfl) k

/-! ## The obligations -/

/-- Settles O54: under the invariant an idle block is the reset state, from which the commands of the frame run. -/
theorem frameIsProcessBuffer : Obligations.FrameIsProcessBuffer := by
  intro s xs cmds rest hs hm hfin hcmds hport
  obtain ⟨hne, hlen, hframe⟩ := frameCommands_eq_some_iff.1 hcmds
  obtain ⟨_, _, _, _, hlenW⟩ := s.cfg.legal_f64_iff.1 hs.block.cfg_legal
  exact runsTo_frame cmds s xs (hs.block.eq_resetState hm) hlenW hne hlen hfin hframe hport

/-- Settles O58, by induction on the number of steps, each a `NOP`. -/
theorem unfinishedFrameWaits : Obligations.UnfinishedFrameWaits := by
  intro k s hm hport hres
  refine ⟨?_, Block.busy_iff.2 hm⟩
  have hstep : step s = .next s := by rw [step_of_port_eq_nil hport, ← hres]
  induction k with
  | zero => rfl
  | succ k ih => rw [runSteps_succ hstep, ih, hres, Option.toList_none, List.nil_append]

/-- Settles O59: the reset step leaves a state that the configuration and the commands determine. -/
theorem runForgetsThePast : Obligations.RunForgetsThePast := by
  intro s s' cmds hcfg
  rw [observeRun, observeRun, runSteps_reset, runSteps_reset, hcfg]

end Sys2Proof.Machine
end
